-- ==== Sys2Proof/Word.lean ====
section
/-! DEFINITION. The word types: a 32-bit register word and the one byte every datum of the engine is (spec 20_memory.md R51). -/

namespace Sys2Proof

/-- A register of the window, or a data-space address (10_state.md R17, 20_memory.md R48). -/
abbrev Word := BitVec 32

/-- A sample, a residual, a filter id or a byte of memory (20_memory.md R51). -/
abbrev Byte := BitVec 8

end Sys2Proof
end

