-- ==== Sys2Proof/Config.lean ====
section
/-! DEFINITION. What an implementation fixes: the constants of the block, the compressor pair, and the free values (opaque constants: nothing can evaluate them). The platform's three other parameters of 00_scope.md R8 are plain data in State (log 2). -/

namespace Sys2Proof

/-- The compressor pair of 00_scope.md R8 with the one law the spec assumes of it. -/
structure Codec where
  compress : List Byte → List Byte
  decompress : List Byte → Option (List Byte)
  decompress_compress : ∀ s, decompress (compress s) = some s

/-- A pair that meets the law, so that the type is known not to be empty. It is NOT the machine's pair. -/
def Codec.identity : Codec := ⟨id, some, fun _ => rfl⟩

/-- Some pair that meets the law: which one is open (92_eei_decisions.md D14; log 3). -/
opaque Config.codecOf [Inhabited Codec] : Codec

/-- The machine's compressor pair (00_scope.md R8, COMPRESS and DECOMPRESS). -/
def Config.codec : Codec := @Config.codecOf ⟨Codec.identity⟩

/-- FREE VALUE (log 7, 13): the byte at an address left unspecified by the draw with this counter. -/
opaque Config.freeByte : Nat → Nat → Byte

/-- FREE VALUE (log 8): which of several refused addresses an ERR_BUS reports. -/
opaque Config.freeIndex : Nat → Nat

/-- FREE VALUE (log 6): a number of hidden state, by counter and slot. -/
opaque Config.freeNat : Nat → Nat → Nat

/-- FREE VALUE (log 6): a byte row of hidden state, by counter and slot. -/
opaque Config.freeRow : Nat → Nat → List Byte

/-- FREE VALUE (log 6): a list of rows of hidden state, by counter and slot. -/
opaque Config.freeRows : Nat → Nat → List (List Byte)

/-- FREE VALUE (log 6): a list of numbers of hidden state, by counter and slot. -/
opaque Config.freeNats : Nat → Nat → List Nat

/-- ID reads this constant, "PIF\0" as a little-endian word (10_state.md R19). -/
def Config.idValue : Word := 0x00464950

/-- VERSION reads this constant, 21 (10_state.md R20). -/
def Config.versionValue : Word := 0x00000015

/-- The number of byte addresses of the data space, ADDR_W = 32 (00_scope.md R8, 20_memory.md R48). -/
def Config.dataSpace : Nat := 4294967296

/-- The size in bytes of the register window (10_state.md R17). -/
def Config.windowBytes : Nat := 0x60

/-- The greatest value MAX_DIM may have (00_scope.md R8). -/
def Config.dimLimit : Nat := 65535

end Sys2Proof
end

