-- ==== Sys2Proof/Syntax.lean ====
section
/-! DEFINITION. The instructions: one constructor per row of spec/opcode_table.json, and the shapes their encodings and disassembly take. -/

namespace Sys2Proof

/-- The instructions of the block. The seven commands carry all four operand fields of the command
word, the ignored ones too (30_encoding.md R69, R70), because the whole word is stored in CMD
(10_state.md R22). SRST carries the ignored bits [31:1] of the CTRL word (R73). A filter record carries
its operand bytes (R75 to R77). -/
inductive Instr where
  | nop (chan : BitVec 2) (fset orient : Bool) (k : BitVec 4)
  | encp (chan : BitVec 2) (fset orient : Bool) (k : BitVec 4)
  | decp (chan : BitVec 2) (fset orient : Bool) (k : BitVec 4)
  | encc (chan : BitVec 2) (fset orient : Bool) (k : BitVec 4)
  | decc (chan : BitVec 2) (fset orient : Bool) (k : BitVec 4)
  | pred (chan : BitVec 2) (fset orient : Bool) (k : BitVec 4)
  | cost (chan : BitVec 2) (fset orient : Bool) (k : BitVec 4)
  | srst (ignored : BitVec 31)
  | f0 (body : List Byte)
  | f1 (body : List Byte)
  | f2 (body : List Byte)
  | f3 (body : List Byte)
  | f4 (body : List Byte)
  | f5 (body : List Byte)
  | f6 (body : List Byte)
  | f7 (body : List Byte)
  | f8 (value : Byte)
  deriving DecidableEq, Repr

/-- The seven per-pixel predictors, filter ids 0 to 6 (00_scope.md R2, 40_predictors.md R89 to R95). -/
inductive Pred where
  | none | left | up | average | paeth | linear | knight
  deriving DecidableEq, Repr

/-- The three encodings an instruction can have (30_encoding.md R68, R73, R74): a word written to CMD, a
word written to CTRL, the bytes of a filter record. -/
inductive Encoding where
  | cmd (word : Word)
  | ctrl (word : Word)
  | record (bytes : List Byte)
  deriving DecidableEq, Repr

/-- What a decoder answers: an instruction, or why there is none. -/
inductive Decoded where
  | instr (i : Instr)
  /-- CMD bits [31:12] not all 0 (30_encoding.md R72). -/
  | reservedBits
  /-- OP in 0x7 to 0xF (30_encoding.md R72). -/
  | reservedOp
  /-- A CTRL word with bit 0 clear: no action (30_encoding.md R73). -/
  | noAction
  /-- A filter id of 9 or more (30_encoding.md R80). -/
  | badFilter
  /-- The bytes end before the record does (41_scanline_codec.md R120). -/
  | underrun
  deriving DecidableEq, Repr

/-- What a CMD word disassembles to (30_encoding.md R86): the mnemonic with the fields the command uses. -/
inductive Disasm where
  | errRsvd (word : Word)
  | reserved
  | nop
  | encp (fset orient : Bool)
  | decp (orient : Bool)
  | encc (chan : BitVec 2) (fset : Bool)
  | decc (chan : BitVec 2)
  | pred (k : BitVec 4)
  | cost (k : BitVec 4)
  deriving DecidableEq, Repr

end Sys2Proof
end

