-- ==== Sys2Proof/WellFormed.lean ====
section
/-! DEFINITION. Which instructions are well formed. Every value of a command's or of SRST's fields encodes; a filter record must carry as many operand bytes as its plane is wide. -/

namespace Sys2Proof

/-- A record body a plane can have: 1 to 65535 bytes (30_encoding.md R75, 00_scope.md R8). -/
def bodyOk (body : List Byte) : Bool := 1 ≤ body.length && body.length ≤ Config.dimLimit

/-- The instruction can stand in some stream or be written to some register. -/
def Instr.wf : Instr → Bool
  | .nop _ _ _ _ => true
  | .encp _ _ _ _ => true
  | .decp _ _ _ _ => true
  | .encc _ _ _ _ => true
  | .decc _ _ _ _ => true
  | .pred _ _ _ _ => true
  | .cost _ _ _ _ => true
  | .srst _ => true
  | .f0 body => bodyOk body
  | .f1 body => bodyOk body
  | .f2 body => bodyOk body
  | .f3 body => bodyOk body
  | .f4 body => bodyOk body
  | .f5 body => bodyOk body
  | .f6 body => bodyOk body
  | .f7 body => bodyOk body
  | .f8 _ => true

/-- The record is one of a plane of width `w`: its body has `w` bytes, or it is F8, whose length does not
depend on `w` (30_encoding.md R78). True of every command. -/
def Instr.fits (w : Nat) : Instr → Bool
  | .nop _ _ _ _ => true
  | .encp _ _ _ _ => true
  | .decp _ _ _ _ => true
  | .encc _ _ _ _ => true
  | .decc _ _ _ _ => true
  | .pred _ _ _ _ => true
  | .cost _ _ _ _ => true
  | .srst _ => true
  | .f0 body => body.length == w
  | .f1 body => body.length == w
  | .f2 body => body.length == w
  | .f3 body => body.length == w
  | .f4 body => body.length == w
  | .f5 body => body.length == w
  | .f6 body => body.length == w
  | .f7 body => body.length == w
  | .f8 _ => true

/-- The instruction is one of the nine filter records, not a command and not SRST. -/
def Instr.isRecord : Instr → Bool
  | .nop _ _ _ _ => false
  | .encp _ _ _ _ => false
  | .decp _ _ _ _ => false
  | .encc _ _ _ _ => false
  | .decc _ _ _ _ => false
  | .pred _ _ _ _ => false
  | .cost _ _ _ _ => false
  | .srst _ => false
  | .f0 _ => true
  | .f1 _ => true
  | .f2 _ => true
  | .f3 _ => true
  | .f4 _ => true
  | .f5 _ => true
  | .f6 _ => true
  | .f7 _ => true
  | .f8 _ => true

end Sys2Proof
end

