-- ==== Sys2Proof/Decode.lean ====
section
/-! DEFINITION. The decoders (command word, CTRL word, filter record), total on any bits and rejecting by name; after them the encoder, written from the same tables of 30_encoding.md; the disassembler of R86; and the reading of a word numbered as the opcode table numbers it. -/

namespace Sys2Proof

/-- Bit `n` of a word. -/
def wordBit (v : Word) (n : Nat) : Bool := v.getLsbD n

/-- OP = v[3:0] (30_encoding.md R69, R70). -/
def cmdOp (v : Word) : BitVec 4 := v.extractLsb' 0 4

/-- CHAN = v[5:4] (30_encoding.md R69, R70). -/
def cmdChan (v : Word) : BitVec 2 := v.extractLsb' 4 2

/-- FSET = v[6] (30_encoding.md R69, R70). -/
def cmdFset (v : Word) : Bool := wordBit v 6

/-- ORIENT = v[7] (30_encoding.md R69, R70). -/
def cmdOrient (v : Word) : Bool := wordBit v 7

/-- K = v[11:8] (30_encoding.md R69, R70). -/
def cmdK (v : Word) : BitVec 4 := v.extractLsb' 8 4

/-- The reserved bits v[31:12] (30_encoding.md R69). -/
def cmdRsv (v : Word) : BitVec 20 := v.extractLsb' 12 20

/-- The command of an OP with its operand fields (30_encoding.md R71). -/
def commandOf (op : BitVec 4) (chan : BitVec 2) (fset orient : Bool) (k : BitVec 4) : Decoded :=
  match op.toNat with
  | 0 => .instr (.nop chan fset orient k)
  | 1 => .instr (.encp chan fset orient k)
  | 2 => .instr (.decp chan fset orient k)
  | 3 => .instr (.encc chan fset orient k)
  | 4 => .instr (.decc chan fset orient k)
  | 5 => .instr (.pred chan fset orient k)
  | 6 => .instr (.cost chan fset orient k)
  | _ => .reservedOp

/-- Decode a word written to CMD: the reserved bits are tested first (30_encoding.md R72). -/
def decodeCmd (v : Word) : Decoded :=
  if cmdRsv v = 0 then commandOf (cmdOp v) (cmdChan v) (cmdFset v) (cmdOrient v) (cmdK v)
  else .reservedBits

/-- Decode a word written to CTRL: bit 0 set is SRST, bits [31:1] are ignored (30_encoding.md R73). -/
def decodeCtrl (v : Word) : Decoded :=
  if wordBit v 0 then .instr (.srst (v.extractLsb' 1 31)) else .noAction

/-- How many bytes follow the id byte of a record in a stream of width `w`; none for an illegal id
(30_encoding.md R78, R80). -/
def recordBodyLength (w : Nat) (id : Byte) : Option Nat :=
  if id.toNat ≤ 7 then some w else if id.toNat = 8 then some 1 else none

/-- The record with this id byte and these operand bytes (30_encoding.md R75 to R77, R80). -/
def recordOf (id : Byte) (body : List Byte) : Decoded :=
  match id.toNat with
  | 0 => .instr (.f0 body)
  | 1 => .instr (.f1 body)
  | 2 => .instr (.f2 body)
  | 3 => .instr (.f3 body)
  | 4 => .instr (.f4 body)
  | 5 => .instr (.f5 body)
  | 6 => .instr (.f6 body)
  | 7 => .instr (.f7 body)
  | 8 => .instr (.f8 (body.headD 0))
  | _ => .badFilter

/-- Decode the record at the head of a byte string, in a stream of width `w`: the id is tested before the
length (41_scanline_codec.md R119, R120). -/
def decodeRecord (w : Nat) (bytes : List Byte) : Decoded :=
  match bytes with
  | [] => .underrun
  | id :: rest =>
    match recordBodyLength w id with
    | none => .badFilter
    | some n => if rest.length < n then .underrun else recordOf id (rest.take n)

/-- Decode an encoding of any of the three kinds, records in a stream of width `w`. -/
def decode (w : Nat) : Encoding → Decoded
  | .cmd v => decodeCmd v
  | .ctrl v => decodeCtrl v
  | .record bytes => decodeRecord w bytes

/-- The command word with these fields (30_encoding.md R69). -/
def cmdWord (rsv : BitVec 20) (op : BitVec 4) (chan : BitVec 2) (fset orient : Bool) (k : BitVec 4) : Word :=
  rsv ++ k ++ BitVec.ofBool orient ++ BitVec.ofBool fset ++ chan ++ op

/-- Encode an instruction (30_encoding.md R69, R71, R73, R75 to R77). -/
def encode : Instr → Encoding
  | .nop chan fset orient k => .cmd (cmdWord 0 0x0 chan fset orient k)
  | .encp chan fset orient k => .cmd (cmdWord 0 0x1 chan fset orient k)
  | .decp chan fset orient k => .cmd (cmdWord 0 0x2 chan fset orient k)
  | .encc chan fset orient k => .cmd (cmdWord 0 0x3 chan fset orient k)
  | .decc chan fset orient k => .cmd (cmdWord 0 0x4 chan fset orient k)
  | .pred chan fset orient k => .cmd (cmdWord 0 0x5 chan fset orient k)
  | .cost chan fset orient k => .cmd (cmdWord 0 0x6 chan fset orient k)
  | .srst ignored => .ctrl (ignored ++ 1#1)
  | .f0 body => .record (0x00 :: body)
  | .f1 body => .record (0x01 :: body)
  | .f2 body => .record (0x02 :: body)
  | .f3 body => .record (0x03 :: body)
  | .f4 body => .record (0x04 :: body)
  | .f5 body => .record (0x05 :: body)
  | .f6 body => .record (0x06 :: body)
  | .f7 body => .record (0x07 :: body)
  | .f8 value => .record [0x08, value]

/-- The bytes of a record, its id byte first; empty for an instruction that is no record. -/
def recordBytes (i : Instr) : List Byte :=
  match encode i with
  | .cmd _ => []
  | .ctrl _ => []
  | .record bytes => bytes

/-- Disassemble a CMD word (30_encoding.md R86): the reserved bits first, then OP, then the fields the
command uses and no others (R70). -/
def disassemble (v : Word) : Disasm :=
  match decodeCmd v with
  | .instr (.nop _ _ _ _) => .nop
  | .instr (.encp _ fset orient _) => .encp fset orient
  | .instr (.decp _ _ orient _) => .decp orient
  | .instr (.encc chan fset _ _) => .encc chan fset
  | .instr (.decc chan _ _ _) => .decc chan
  | .instr (.pred _ _ _ k) => .pred k
  | .instr (.cost _ _ _ k) => .cost k
  | .reservedBits => .errRsvd v
  | _ => .reserved

/-- Disassemble a filtered stream (30_encoding.md R86): up to `h` records of width `w`, stopping at an
illegal id or inside a record. -/
def disassembleStream (w : Nat) : Nat → List Byte → List Instr
  | 0, _ => []
  | h + 1, bytes =>
    match decodeRecord w bytes with
    | .instr i => i :: disassembleStream w h (bytes.drop (recordBytes i).length)
    | _ => []

/-- The CTRL reading of a table word, for the words no other row of the table matches. -/
def ctrlRow (v : Word) : Option Instr :=
  match decodeCtrl v with
  | .instr i => some i
  | _ => none

/-- The instruction the decoders read from a word of the opcode table. The table's rows stand in three
separate spaces (CMD words, CTRL words, record id bytes) and a table word does not say which: a row of at
most 8 bits is a record of a plane one sample wide, whose operand byte above nbits is 0; a wider row is a
CMD word; a word that neither admits is a CTRL word where its bit 0 is set (log 18). -/
def decodeTableWord (nbits w : Nat) : Option Instr :=
  if nbits ≤ 8 then
    match decodeRecord 1 [BitVec.ofNat 8 w, 0] with
    | .instr i => some i
    | _ => ctrlRow (BitVec.ofNat 32 w)
  else
    match decodeCmd (BitVec.ofNat 32 w) with
    | .instr i => some i
    | _ => ctrlRow (BitVec.ofNat 32 w)

end Sys2Proof
end

