-- ==== Sys2Proof/Machine/State.lean ====
section
/-! DEFINITION. The state of the block and of what stands around it, as plain data (10_state.md R14), its value at reset (R46), and the reasons a step can stop. -/

namespace Sys2Proof.Machine

/-- IDLE or BUSY (10_state.md R42). -/
inductive Phase where
  | idle | busy
  deriving DecidableEq, Repr

/-- The error codes of STATUS.ERRCODE, one per row of 60_exceptions.md R148, the first "no error". -/
inductive ErrCode where
  | none | op | rsvd | dim | arg | range | overlap | src | dstCap | badFilter | underrun | decomp | bus
  deriving DecidableEq, Repr

/-- The two kinds of byte access BUS_ADMIT speaks of (00_scope.md R8). -/
inductive Access where
  | read | write
  deriving DecidableEq, Repr

/-- The registers of the window that have a name (10_state.md R18). -/
inductive RegName where
  | id | version | ctrl | cmd | status | errInfo | irqEn | scanFlags | width | height | srcAddr | srcLen
  | dstAddr | dstCap | outLen | inUsed | lenRm | lenTr | predY | predX | result
  deriving DecidableEq, Repr

/-- A range of data-space addresses for which the platform refuses accesses of one kind. -/
structure BusRegion where
  base : Nat
  len : Nat
  kind : Access
  deriving DecidableEq, Repr

/-- The parameters of 00_scope.md R8 that are data: REG_BASE; MAX_DIM less one, so that MAX_DIM lies in
1 to 65535; and BUS_ADMIT, given by the ranges it refuses (log 2). No step changes them. -/
structure Platform where
  regBase : Nat
  maxDimIndex : Fin 65535
  refuses : List BusRegion
  deriving DecidableEq, Repr

/-- The registers of the window that hold a value, but for STATUS (10_state.md R22 to R39). -/
structure Regs where
  cmd : Word
  errInfo : Word
  irqEn : BitVec 2
  scanFlags : BitVec 4
  width : Word
  height : Word
  srcAddr : Word
  srcLen : Word
  dstAddr : Word
  dstCap : Word
  outLen : Word
  inUsed : Word
  lenRm : Word
  lenTr : Word
  predY : Word
  predX : Word
  result : Word
  deriving DecidableEq, Repr

/-- The stored fields of STATUS (10_state.md R23); BUSY is the phase (R42). -/
structure Status where
  done : Bool
  err : Bool
  cmdOvr : Bool
  errcode : ErrCode
  deriving DecidableEq, Repr

/-- The latched command parameters (10_state.md R41, 43_commands.md R133); what they hold between commands is
the model's choice (log 26). -/
structure Latch where
  op : BitVec 4
  chan : BitVec 2
  fset : Bool
  orient : Bool
  k : BitVec 4
  rsv : BitVec 20
  width : Word
  height : Word
  srcAddr : Word
  srcLen : Word
  dstAddr : Word
  dstCap : Word
  predY : Word
  predX : Word
  flag : Bool
  deriving DecidableEq, Repr

/-- The engine's hidden working state: the history rows (10_state.md R43) and the rest of R44 (row
counter, stream cursor, candidate rows and costs, the rows decoded and the stream emitted so far, ENCC's
trials), with the width of the plane it works on. -/
structure Engine where
  width : Nat
  y : Nat
  cur : Nat
  prior : List Byte
  priorprior : List Byte
  cands : List (List Byte)
  costs : List Nat
  rows : List (List Byte)
  stream : List Byte
  s0 : List Byte
  s1 : List Byte
  c0 : List Byte
  c1 : List Byte
  deriving DecidableEq, Repr

/-- A range of data-space addresses (20_memory.md R54). -/
structure Region where
  base : Nat
  len : Nat
  deriving DecidableEq, Repr

/-- The source and destination regions of an accepted command whose end the host has not observed
(70_reset_and_hazards.md R172, R173, R179; log 12). A region the command does not use is empty. -/
structure Guard where
  src : Region
  dst : Region
  deriving DecidableEq, Repr

/-- What the host, the platform or the engine does next. -/
inductive Event where
  /-- A host store of `size` bytes of value `v` at an address of the host's space (43_commands.md R145). -/
  | hostWrite (addr size : Nat) (v : Word)
  /-- A host load of `size` bytes at an address of the host's space (43_commands.md R144). -/
  | hostRead (addr size : Nat)
  /-- A store of a byte to the data space by the host or another agent (20_memory.md R48). -/
  | memWrite (a : Word) (b : Byte)
  /-- A host load of a byte of the data space. -/
  | memRead (a : Word)
  /-- The host looks at the interrupt output (10_state.md R45). -/
  | irqSample
  /-- The engine takes its enabled step (43_commands.md R135). -/
  | engine
  /-- The platform stops the block's clock or removes its power (70_reset_and_hazards.md R174). -/
  | gate
  /-- The platform remaps a range of the data space (70_reset_and_hazards.md R174). -/
  | remap (base len : Nat)
  deriving DecidableEq, Repr

/-- The data memory: the bytes that differ from what an unlisted address reads as, at rising addresses. -/
abbrev Memory := List Host.Cell

/-- The state. The fields up to `mem` are the spec's (10_state.md R14); `platform` holds its parameters
(00_scope.md R8); the last four are the model's own (log 1, 23, 12, 6). -/
structure State where
  regs : Regs
  status : Status
  phase : Phase
  lat : Latch
  eng : Engine
  hazard : Bool
  mem : Memory
  platform : Platform
  script : List Event
  readData : Word
  guards : List Guard
  freeCtr : Nat
  deriving DecidableEq, Repr

/-- Why a step can stop with a fault. Neither reason can arise from a state that meets the invariant. -/
inductive Fault where
  /-- Raised by the engine's turn while BUSY with a latched word that is no command. No acceptance leaves
  such a state (43_commands.md R133, 60_exceptions.md R150). Safe: the model stops where no hardware is. -/
  | latchedNoCommand
  /-- Raised by the completion of PRED or COST with a latched K outside its range, which R150 rejects at
  acceptance. Safe: the model stops where no hardware is. -/
  | latchedFilterId
  deriving DecidableEq, Repr

/-- Why a step can give no meaning. -/
inductive Refusal where
  /-- Raised by an arm of exec whose instruction has no meaning yet. Safe. -/
  | notModelled (mnemonic : String)
  /-- Raised by a host access to the window that is not an aligned 32-bit one: "outside this
  specification: a model refuses it (gives it no meaning)" (20_memory.md R49). Safe. -/
  | registerAccess
  /-- Raised by the platform gating the block's clock or power while IDLE: "outside this specification"
  (60_exceptions.md R164). Safe. -/
  | platformGating
  deriving DecidableEq, Repr

/-- Every register of R46 at 0. -/
def Regs.reset : Regs :=
  { cmd := 0, errInfo := 0, irqEn := 0, scanFlags := 0, width := 0, height := 0, srcAddr := 0, srcLen := 0,
    dstAddr := 0, dstCap := 0, outLen := 0, inUsed := 0, lenRm := 0, lenTr := 0, predY := 0, predX := 0,
    result := 0 }

/-- STATUS 0 (10_state.md R46). -/
def Status.reset : Status := { done := false, err := false, cmdOvr := false, errcode := .none }

/-- DESIGN CHOICE (log 5): the latch after power-on; the spec gives no value and never reads it. -/
def Latch.reset : Latch :=
  { op := 0, chan := 0, fset := false, orient := false, k := 0, rsv := 0, width := 0, height := 0,
    srcAddr := 0, srcLen := 0, dstAddr := 0, dstCap := 0, predY := 0, predX := 0, flag := false }

/-- DESIGN CHOICE (log 5): the hidden state after power-on; the spec gives no value and never reads it. -/
def Engine.reset : Engine :=
  { width := 0, y := 0, cur := 0, prior := [], priorprior := [], cands := [], costs := [], rows := [],
    stream := [], s0 := [], s1 := [], c0 := [], c1 := [] }

/-- DESIGN CHOICE (log 2): the platform of State.reset: REG_BASE 0, MAX_DIM 65535, every access admitted. -/
def Platform.reset : Platform := { regBase := 0, maxDimIndex := 65534, refuses := [] }

/-- The state after power-on reset (10_state.md R46, 70_reset_and_hazards.md R167, R168): every register
at its reset value, IDLE, hazard false. The memory's contents, the latch, the hidden state and the model's
own fields are named in log 1, 4, 5, 6, 12 and 23. -/
def State.reset : State :=
  { regs := Regs.reset, status := Status.reset, phase := .idle, lat := Latch.reset, eng := Engine.reset,
    hazard := false, mem := [], platform := Platform.reset, script := [], readData := 0, guards := [],
    freeCtr := 0 }

end Sys2Proof.Machine
end

