-- ==== Sys2Proof/Machine/Flags.lean ====
section
/-! DEFINITION. The flags: the codes of STATUS.ERRCODE, the STATUS word, its write-1-to-clear rule, and the interrupt output. -/

namespace Sys2Proof.Machine

/-- The code of an error as STATUS.ERRCODE holds it (60_exceptions.md R148). -/
def errByte : ErrCode → Byte
  | .none => 0x00
  | .op => 0x01
  | .rsvd => 0x02
  | .dim => 0x03
  | .arg => 0x04
  | .range => 0x05
  | .overlap => 0x06
  | .src => 0x07
  | .dstCap => 0x08
  | .badFilter => 0x09
  | .underrun => 0x0A
  | .decomp => 0x0B
  | .bus => 0x0C

/-- STATUS.BUSY reads 1 exactly while BUSY (10_state.md R23, R42). -/
def busyBit (s : State) : Bool :=
  match s.phase with
  | .idle => false
  | .busy => true

/-- STATUS as it reads: BUSY [0], DONE [1], ERR [2], CMD_OVR [3], ERRCODE [15:8], every other bit 0
(10_state.md R23). -/
def statusWord (s : State) : Word :=
  0#16 ++ errByte s.status.errcode ++ 0#4 ++ BitVec.ofBool s.status.cmdOvr ++ BitVec.ofBool s.status.err
    ++ BitVec.ofBool s.status.done ++ BitVec.ofBool (busyBit s)

/-- A write of `v` to STATUS clears DONE, ERR and CMD_OVR where `v` has a 1 (10_state.md R23). -/
def statusClear (v : Word) (st : Status) : Status :=
  { st with
    done := st.done && !v.getLsbD 1
    err := st.err && !v.getLsbD 2
    cmdOvr := st.cmdOvr && !v.getLsbD 3 }

/-- IRQ_EN.DONE_IE, bit 0 (10_state.md R25). -/
def doneIe (s : State) : Bool := s.regs.irqEn.getLsbD 0

/-- IRQ_EN.ERR_IE, bit 1 (10_state.md R25). -/
def errIe (s : State) : Bool := s.regs.irqEn.getLsbD 1

/-- The interrupt output (10_state.md R45). -/
def irq (s : State) : Bool := (s.status.done && doneIe s) || (s.status.err && errIe s)

end Sys2Proof.Machine
end

