-- ==== Sys2Proof/Machine/Ops.lean ====
section
/-! DEFINITION. The named operations every meaning shares: the data memory, the platform's admission of accesses, the free values, the register window, the error end and the completion of a command, acceptance with the static checks, and the reset. -/

namespace Sys2Proof.Machine

/-! ### The data memory (20_memory.md R48, R58) -/

/-- What a byte nothing has written reads as. DESIGN CHOICE (log 4): the spec gives the memory no contents. -/
def unlistedByte : Byte := 0

/-- Read one byte. -/
def Memory.read : Memory → Nat → Byte
  | [], _ => unlistedByte
  | (b, v) :: t, a => if a = b then v else Memory.read t a

/-- Put a byte into the canonical list: in its place, or out of the list if it is what an unlisted address
reads as. -/
def Memory.put : Memory → Nat → Byte → Memory
  | [], a, v => if v = unlistedByte then [] else [(a, v)]
  | (b, u) :: t, a, v =>
    if a < b then (if v = unlistedByte then (b, u) :: t else (a, v) :: (b, u) :: t)
    else if a = b then (if v = unlistedByte then t else (a, v) :: t)
    else (b, u) :: Memory.put t a v

/-- Write one byte; there is no byte at or above 2^32 (20_memory.md R48). -/
def Memory.write (m : Memory) (a : Nat) (v : Byte) : Memory :=
  if a < Config.dataSpace then Memory.put m a v else m

/-- Write a byte string at rising addresses (20_memory.md R53). -/
def Memory.writeBytes : Memory → Nat → List Byte → Memory
  | m, _, [] => m
  | m, a, b :: bs => Memory.writeBytes (Memory.write m a b) (a + 1) bs

/-- Read `n` bytes at rising addresses (20_memory.md R53). -/
def Memory.readBytes (m : Memory) (a n : Nat) : List Byte := (List.range n).map fun k => Memory.read m (a + k)

/-- Every byte of `[base, base + n)` takes the free value of its address under the counter `ctr`. -/
def Memory.scramble (m : Memory) (ctr base : Nat) : Nat → Memory
  | 0 => m
  | n + 1 => Memory.write (Memory.scramble m ctr base n) (base + n) (Config.freeByte ctr (base + n))

/-- The canonical form from an address on: strictly rising addresses of the data space, no byte equal to
what an unlisted address reads as. -/
def Memory.wfFrom : Nat → Memory → Bool
  | _, [] => true
  | lo, (b, v) :: t => lo ≤ b && b < Config.dataSpace && v != unlistedByte && Memory.wfFrom (b + 1) t

/-- The canonical form. -/
def Memory.wf (m : Memory) : Bool := Memory.wfFrom 0 m

/-! ### Regions and the platform (20_memory.md R54, 60_exceptions.md R152) -/

/-- The address lies in the region. -/
def inRegion (r : Region) (a : Nat) : Bool := r.base ≤ a && a < r.base + r.len

/-- Two regions overlap: both non-empty and sharing an address (20_memory.md R54). -/
def regionsOverlap (r q : Region) : Bool :=
  0 < r.len && 0 < q.len && r.base < q.base + q.len && q.base < r.base + r.len

/-- MAX_DIM (00_scope.md R8). -/
def maxDim (p : Platform) : Nat := p.maxDimIndex.val + 1

/-- BUS_ADMIT (00_scope.md R8, 60_exceptions.md R152): an address the platform does not refuse. An
address outside the data space is refused (log 10). -/
def admits (p : Platform) (k : Access) (a : Nat) : Bool :=
  a < Config.dataSpace && p.refuses.all fun r => !(r.kind == k && r.base ≤ a && a < r.base + r.len)

/-- Those of the addresses that the platform refuses. -/
def refusedOf (p : Platform) (k : Access) (as : List Nat) : List Nat := as.filter fun a => !admits p k a

/-- The addresses of a range. -/
def addrRange (base n : Nat) : List Nat := (List.range n).map fun k => base + k

/-! ### The latched command (10_state.md R41) -/

/-- The source region of a latched command (20_memory.md R54). -/
def Latch.srcRegion (l : Latch) : Region := ⟨l.srcAddr.toNat, l.srcLen.toNat⟩

/-- The destination region of a latched command (20_memory.md R54). -/
def Latch.dstRegion (l : Latch) : Region := ⟨l.dstAddr.toNat, l.dstCap.toNat⟩

/-- The command word the fields were latched from (43_commands.md R133). -/
def Latch.word (l : Latch) : Word := cmdWord l.rsv l.op l.chan l.fset l.orient l.k

/-- The command has a destination region: ENCP, DECP, ENCC or DECC (60_exceptions.md R150). -/
def Latch.hasDst (l : Latch) : Bool := 1 ≤ l.op.toNat && l.op.toNat ≤ 4

/-- The command's source is a plane: ENCP, ENCC, PRED or COST (60_exceptions.md R150). -/
def Latch.planeSource (l : Latch) : Bool :=
  l.op.toNat == 1 || l.op.toNat == 3 || l.op.toNat == 5 || l.op.toNat == 6

/-- The command decodes to a plane: DECP or DECC (60_exceptions.md R150). -/
def Latch.planeResult (l : Latch) : Bool := l.op.toNat == 2 || l.op.toNat == 4

/-- The regions whose stability the host owes to a command (70_reset_and_hazards.md R172, R173; log 12). -/
def guardOf (l : Latch) : Guard :=
  { src := if l.op.toNat = 0 then ⟨0, 0⟩ else l.srcRegion
    dst := if l.hasDst then l.dstRegion else ⟨0, 0⟩ }

/-- What acceptance of the word `v` latches (10_state.md R41, 43_commands.md R133). -/
def latchOf (v : Word) (r : Regs) : Latch :=
  { op := cmdOp v, chan := cmdChan v, fset := cmdFset v, orient := cmdOrient v, k := cmdK v, rsv := cmdRsv v
    width := r.width, height := r.height, srcAddr := r.srcAddr, srcLen := r.srcLen
    dstAddr := r.dstAddr, dstCap := r.dstCap, predY := r.predY, predX := r.predX
    flag := r.scanFlags.getLsbD (cmdChan v).toNat }

/-! ### Free values (log 6, 7, 8) -/

/-- A latch whose every field is free: lat after a reset (10_state.md R46). -/
def freeLatch (c : Nat) : Latch :=
  { op := BitVec.ofNat 4 (Config.freeNat c 0), chan := BitVec.ofNat 2 (Config.freeNat c 1)
    fset := Config.freeNat c 2 % 2 == 1, orient := Config.freeNat c 3 % 2 == 1
    k := BitVec.ofNat 4 (Config.freeNat c 4), rsv := BitVec.ofNat 20 (Config.freeNat c 5)
    width := BitVec.ofNat 32 (Config.freeNat c 6), height := BitVec.ofNat 32 (Config.freeNat c 7)
    srcAddr := BitVec.ofNat 32 (Config.freeNat c 8), srcLen := BitVec.ofNat 32 (Config.freeNat c 9)
    dstAddr := BitVec.ofNat 32 (Config.freeNat c 10), dstCap := BitVec.ofNat 32 (Config.freeNat c 11)
    predY := BitVec.ofNat 32 (Config.freeNat c 12), predX := BitVec.ofNat 32 (Config.freeNat c 13)
    flag := Config.freeNat c 14 % 2 == 1 }

/-- Hidden state whose every field is free: the history and the rest between commands and after a reset
(10_state.md R43, R44, R46). -/
def freeEngine (c : Nat) : Engine :=
  { width := Config.freeNat c 20, y := Config.freeNat c 21, cur := Config.freeNat c 22
    prior := Config.freeRow c 0, priorprior := Config.freeRow c 1
    cands := Config.freeRows c 0, costs := Config.freeNats c 0
    rows := Config.freeRows c 1, stream := Config.freeRow c 2
    s0 := Config.freeRow c 3, s1 := Config.freeRow c 4, c0 := Config.freeRow c 5, c1 := Config.freeRow c 6 }

/-- One of the refused addresses, which one is free (60_exceptions.md R152; log 8). -/
def pickRefused (c : Nat) (as : List Nat) : Nat := as.getD (Config.freeIndex c % as.length) 0

/-- Every byte of a region becomes unspecified (20_memory.md R57, 70_reset_and_hazards.md R169). -/
def scrambleRegion (r : Region) (s : State) : State :=
  { s with mem := Memory.scramble s.mem s.freeCtr r.base r.len, freeCtr := s.freeCtr + 1 }

/-! ### The end of a command: completion and the error end -/

/-- A length as a register holds it, saturating at 0xFFFFFFFF (10_state.md R35, 43_commands.md R139). -/
def sat32 (n : Nat) : Word := BitVec.ofNat 32 (min n 0xFFFFFFFF)

/-- What every end of a command does: IDLE, and the hidden state does not survive (10_state.md R43, R44).
DESIGN CHOICE (log 26): the latch keeps its last contents until the next acceptance or reset; row 12 of
93_implementation_defined.md allows any value there, and nothing reads it (10_state.md R41). -/
def endCommand (s : State) : State :=
  { s with phase := .idle, eng := freeEngine s.freeCtr, freeCtr := s.freeCtr + 1 }

/-- complete() (43_commands.md R134). -/
def complete (s : State) : State := endCommand { s with status := { s.status with done := true } }

/-- TAKING AN EXCEPTION: raise Error(code, info), the error end (60_exceptions.md R149). ERRCODE, ERR_INFO
and ERR are written and the phase becomes IDLE; there is no vector, no handler and no mode. -/
def raiseError (code : ErrCode) (info : Word) (s : State) : State :=
  endCommand
    { s with
      status := { s.status with err := true, errcode := code }
      regs := { s.regs with errInfo := info } }

/-- RETURN FROM AN EXCEPTION: the host acknowledges by writing 1s to STATUS (60_exceptions.md R153); the
code and the information word stay. (Acceptance of the next command is the other way, `accept`.) -/
def acknowledge (v : Word) (s : State) : State := { s with status := statusClear v s.status }

/-- raise Error in the completion step of a command with a destination: its bytes become unspecified
(60_exceptions.md R149, 20_memory.md R57). -/
def raiseDynamic (code : ErrCode) (info : Word) (s : State) : State :=
  raiseError code info (scrambleRegion s.lat.dstRegion s)

/-- ERR_BUS at one of the refused addresses, in a command with a destination (60_exceptions.md R152). -/
def raiseBus (as : List Nat) (s : State) : State :=
  raiseDynamic .bus (BitVec.ofNat 32 (pickRefused s.freeCtr as)) s

/-- ERR_BUS in PRED or COST, which have no destination (20_memory.md R55). -/
def raiseBusNoDst (as : List Nat) (s : State) : State :=
  raiseError .bus (BitVec.ofNat 32 (pickRefused s.freeCtr as)) s

/-- Write a command's output to the destination, unless the platform refuses one of its bytes
(43_commands.md R137 to R140, 60_exceptions.md R151, R152). -/
def storeOutput (bs : List Byte) (done : State → State) (s : State) : State :=
  match refusedOf s.platform .write (addrRange s.lat.dstAddr.toNat bs.length) with
  | [] => done { s with mem := Memory.writeBytes s.mem s.lat.dstAddr.toNat bs }
  | a :: as => raiseBus (a :: as) s

/-! ### Acceptance (43_commands.md R133, 60_exceptions.md R150) -/

/-- ERR_ARG of PRED and COST (60_exceptions.md R148, R150). -/
def argCheck (l : Latch) : Option (ErrCode × Word) :=
  if l.op.toNat = 5 then
    if 6 < l.k.toNat then some (.arg, 0)
    else if l.height.toNat ≤ l.predY.toNat then some (.arg, 1)
    else if l.width.toNat ≤ l.predX.toNat then some (.arg, 2)
    else none
  else if l.op.toNat = 6 then
    if 7 < l.k.toNat then some (.arg, 0)
    else if l.height.toNat ≤ l.predY.toNat then some (.arg, 1)
    else none
  else none

/-- The region checks of StaticCheck (60_exceptions.md R150). -/
def regionCheck (l : Latch) : Option (ErrCode × Word) :=
  if Config.dataSpace < l.srcAddr.toNat + l.srcLen.toNat then some (.range, 0)
  else if l.hasDst && Config.dataSpace < l.dstAddr.toNat + l.dstCap.toNat then some (.range, 1)
  else if l.hasDst && regionsOverlap l.srcRegion l.dstRegion then some (.overlap, 0)
  else if l.planeSource && l.srcLen.toNat < l.width.toNat * l.height.toNat then
    some (.src, BitVec.ofNat 32 (l.width.toNat * l.height.toNat))
  else if l.planeResult && l.dstCap.toNat < l.width.toNat * l.height.toNat then
    some (.dstCap, BitVec.ofNat 32 (l.width.toNat * l.height.toNat))
  else none

/-- StaticCheck(lat): the first condition that holds, in the order of 60_exceptions.md R150. -/
def staticCheck (p : Platform) (l : Latch) : Option (ErrCode × Word) :=
  if l.rsv ≠ 0 then some (.rsvd, l.word)
  else if 7 ≤ l.op.toNat then some (.op, l.word)
  else if l.op.toNat = 0 then none
  else if l.width.toNat = 0 || maxDim p < l.width.toNat then some (.dim, 0)
  else if l.height.toNat = 0 || maxDim p < l.height.toNat then some (.dim, 1)
  else match argCheck l with
    | some e => some e
    | none => regionCheck l

/-- What acceptance clears, and CMD (43_commands.md R133). -/
def clearResults (v : Word) (s : State) : State :=
  { s with
    regs := { s.regs with cmd := v, errInfo := 0, outLen := 0, inUsed := 0, lenRm := 0, lenTr := 0, result := 0 }
    status := { s.status with done := false, err := false, errcode := .none } }

/-- A host write of `v` to CMD while IDLE (43_commands.md R133). -/
def accept (v : Word) (s : State) : State :=
  let t := { clearResults v s with lat := latchOf v s.regs, guards := guardOf (latchOf v s.regs) :: s.guards }
  match staticCheck t.platform t.lat with
  | some (code, info) => raiseError code info t
  | none => { t with phase := .busy }

/-- A host write to CMD while BUSY is dropped and leaves CMD_OVR (43_commands.md R133, 60_exceptions.md R155). -/
def overrun (s : State) : State := { s with status := { s.status with cmdOvr := true } }

/-! ### Reset (70_reset_and_hazards.md R168, R169) -/

/-- Abandoning a command in progress leaves its destination unspecified (R168, R169). -/
def abandon (s : State) : State :=
  match s.phase with
  | .idle => s
  | .busy => if s.lat.hasDst then scrambleRegion s.lat.dstRegion s else s

/-- The soft reset: every register at its reset value, IDLE, lat and the hidden state unspecified, hazard
unchanged (R168); the host has not yet observed an end (R179, log 12). -/
def softReset (s : State) : State :=
  { abandon s with
    regs := Regs.reset, status := Status.reset, phase := .idle
    lat := freeLatch (abandon s).freeCtr, eng := freeEngine (abandon s).freeCtr
    freeCtr := (abandon s).freeCtr + 1 }

/-! ### The register window (10_state.md R17, R18, 43_commands.md R144, R145) -/

/-- The register at an offset; none at a reserved offset (10_state.md R18). -/
def regAt (off : Nat) : Option RegName :=
  match off with
  | 0x00 => some .id
  | 0x04 => some .version
  | 0x08 => some .ctrl
  | 0x0C => some .cmd
  | 0x10 => some .status
  | 0x14 => some .errInfo
  | 0x18 => some .irqEn
  | 0x1C => some .scanFlags
  | 0x20 => some .width
  | 0x24 => some .height
  | 0x28 => some .srcAddr
  | 0x2C => some .srcLen
  | 0x30 => some .dstAddr
  | 0x34 => some .dstCap
  | 0x38 => some .outLen
  | 0x3C => some .inUsed
  | 0x40 => some .lenRm
  | 0x44 => some .lenTr
  | 0x48 => some .predY
  | 0x4C => some .predX
  | 0x50 => some .result
  | _ => none

/-- The value a host read returns (43_commands.md R144, 10_state.md R19 to R39). -/
def readReg (r : RegName) (s : State) : Word :=
  match r with
  | .id => Config.idValue
  | .version => Config.versionValue
  | .ctrl => 0
  | .cmd => s.regs.cmd
  | .status => statusWord s
  | .errInfo => s.regs.errInfo
  | .irqEn => s.regs.irqEn.setWidth 32
  | .scanFlags => s.regs.scanFlags.setWidth 32
  | .width => s.regs.width
  | .height => s.regs.height
  | .srcAddr => s.regs.srcAddr
  | .srcLen => s.regs.srcLen
  | .dstAddr => s.regs.dstAddr
  | .dstCap => s.regs.dstCap
  | .outLen => s.regs.outLen
  | .inUsed => s.regs.inUsed
  | .lenRm => s.regs.lenRm
  | .lenTr => s.regs.lenTr
  | .predY => s.regs.predY
  | .predX => s.regs.predX
  | .result => s.regs.result

/-- The value a host read of an offset returns: 0 at a reserved offset (10_state.md R17). -/
def readOffset (off : Nat) (s : State) : Word :=
  match regAt off with
  | some r => readReg r s
  | none => 0

/-- A host write to a register other than CMD and CTRL, whose writes run an instruction (43_commands.md
R145): read-only registers ignore it (10_state.md R17). -/
def writeReg (r : RegName) (v : Word) (s : State) : State :=
  match r with
  | .id => s
  | .version => s
  | .ctrl => s
  | .cmd => s
  | .status => acknowledge v s
  | .errInfo => s
  | .irqEn => { s with regs := { s.regs with irqEn := v.extractLsb' 0 2 } }
  | .scanFlags => { s with regs := { s.regs with scanFlags := v.extractLsb' 0 4 } }
  | .width => { s with regs := { s.regs with width := v } }
  | .height => { s with regs := { s.regs with height := v } }
  | .srcAddr => { s with regs := { s.regs with srcAddr := v } }
  | .srcLen => { s with regs := { s.regs with srcLen := v } }
  | .dstAddr => { s with regs := { s.regs with dstAddr := v } }
  | .dstCap => { s with regs := { s.regs with dstCap := v } }
  | .outLen => s
  | .inUsed => s
  | .lenRm => s
  | .lenTr => s
  | .predY => { s with regs := { s.regs with predY := v } }
  | .predX => { s with regs := { s.regs with predX := v } }
  | .result => s

/-- Byte `k` of a register in the window's byte-lane view: bits [8k+7:8k] (20_memory.md R50). -/
def byteLane (v : Word) (k : Nat) : Byte := v.extractLsb' (8 * k) 8

/-- Where a host access falls (10_state.md R17, 20_memory.md R49). -/
inductive WindowHit where
  /-- No byte of the access is in the window. -/
  | outside
  /-- An aligned 32-bit access at this offset. -/
  | hit (off : Nat)
  /-- It touches the window but is not an aligned 32-bit access inside it. -/
  | undefined
  deriving DecidableEq, Repr

/-- Where the access of `size` bytes at host address `addr` falls, the window being at REG_BASE. -/
def windowHit (p : Platform) (addr size : Nat) : WindowHit :=
  if addr + size ≤ p.regBase || p.regBase + Config.windowBytes ≤ addr then .outside
  else if p.regBase ≤ addr && size == 4 && (addr - p.regBase) % 4 == 0 then .hit (addr - p.regBase)
  else .undefined

/-! ### The host's duties (70_reset_and_hazards.md R172 to R174, log 12) -/

/-- Set the hazard mark if the condition holds; nothing clears it (10_state.md R42). -/
def markHazard (c : Bool) (s : State) : State := { s with hazard := s.hazard || c }

/-- The address lies in the source or destination region of a command whose end is not observed. -/
def guarded (s : State) (a : Nat) : Bool := s.guards.any fun g => inRegion g.src a || inRegion g.dst a

/-- The address lies in the destination region of a command whose end is not observed. -/
def guardedDst (s : State) (a : Nat) : Bool := s.guards.any fun g => inRegion g.dst a

/-- The range meets a region of the command in progress (R174). -/
def remapsGuarded (s : State) (r : Region) : Bool :=
  match s.phase with
  | .idle => false
  | .busy => regionsOverlap r (guardOf s.lat).src || regionsOverlap r (guardOf s.lat).dst

/-- A store to the data space by the host or another agent (R172, R173). -/
def hostStore (a : Word) (b : Byte) (s : State) : State :=
  { markHazard (guarded s a.toNat) s with mem := Memory.write s.mem a.toNat b }

/-- A host load from the data space: an unspecified byte in the destination region of a command whose end
is not observed (R173; log 13). -/
def hostLoad (a : Word) (s : State) : State :=
  if guardedDst s a.toNat then
    { s with readData := (Config.freeByte s.freeCtr a.toNat).setWidth 32, freeCtr := s.freeCtr + 1 }
  else { s with readData := (Memory.read s.mem a.toNat).setWidth 32 }

/-- The host has seen the end of every command accepted so far, if the last has ended (R179). -/
def observeEnd (s : State) : State :=
  match s.phase with
  | .idle => { s with guards := [] }
  | .busy => s

/-- A host read of an offset: the value, no side effect on the block; a read of STATUS with BUSY 0 is how
the host observes an end (43_commands.md R144, 70_reset_and_hazards.md R179). -/
def hostReadReg (off : Nat) (s : State) : State :=
  match regAt off with
  | some .status => { observeEnd s with readData := statusWord s }
  | _ => { s with readData := readOffset off s }

/-- The host looks at irq; seeing it at 1 is the other way to observe an end (70_reset_and_hazards.md R179). -/
def sampleIrq (s : State) : State :=
  if irq s then { observeEnd s with readData := 1 } else { s with readData := 0 }

/-- The platform remaps a range: a hazard if it meets a region of the command in progress; the bytes of the
range are then whatever is there (R174; log 15). -/
def remapRange (r : Region) (s : State) : State :=
  scrambleRegion r (markHazard (remapsGuarded s r) s)

end Sys2Proof.Machine
end

