-- ==== Sys2Proof/Machine/Operands.lean ====
section
/-! DEFINITION. The operand forms: the two readings of a residual byte, the neighbours of a pixel, and planes as they lie in memory. -/

namespace Sys2Proof.Machine

/-- A plane as its rows, top first (00_scope.md R11). -/
abbrev Plane := List (List Byte)

/-- s8(b): the signed reading of a byte (00_scope.md R10, 30_encoding.md R81). -/
def s8 (b : Byte) : Int := if b.toNat ≤ 127 then (b.toNat : Int) else (b.toNat : Int) - 256

/-- clip(a, 0, 255) as a byte (00_scope.md R10). -/
def clipByte (a : Int) : Byte := if a < 0 then 0 else if 255 < a then 255 else BitVec.ofInt 8 a

/-- a mod 256 as a byte (00_scope.md R10). -/
def mod256 (a : Int) : Byte := BitVec.ofInt 8 a

/-- A row of `w` zero bytes (10_state.md R43). -/
def zeroRow (w : Nat) : List Byte := List.replicate w 0

/-- The neighbours of a pixel (40_predictors.md R87). -/
structure Neighbours where
  left : Byte
  up : Byte
  upperLeft : Byte
  knightA : Byte
  knightB : Byte
  deriving DecidableEq, Repr

/-- The sample `d` columns to the left of column `x` in a row, 0 where there is none (40_predictors.md R87). -/
def sampleBack (row : List Byte) (x d : Nat) : Byte := if d ≤ x then row.getD (x - d) 0 else 0

/-- The neighbours of column `x` from the row itself and the history rows `prior` and `priorprior`, which
are all zero where a row does not exist (40_predictors.md R87, R88, 10_state.md R43). -/
def neighboursAt (row prior priorprior : List Byte) (x : Nat) : Neighbours :=
  { left := sampleBack row x 1
    up := sampleBack prior x 0
    upperLeft := sampleBack prior x 1
    knightA := sampleBack priorprior x 1
    knightB := sampleBack prior x 2 }

/-- N(dy, dx) over a plane (40_predictors.md R87). -/
def planeSample (P : Plane) (y x dy dx : Nat) : Byte :=
  if dy ≤ y && dx ≤ x then (P.getD (y - dy) []).getD (x - dx) 0 else 0

/-- The five neighbours over a plane (40_predictors.md R87). -/
def planeNeighbours (P : Plane) (y x : Nat) : Neighbours :=
  { left := planeSample P y x 0 1
    up := planeSample P y x 1 0
    upperLeft := planeSample P y x 1 1
    knightA := planeSample P y x 2 1
    knightB := planeSample P y x 1 2 }

/-- Row `y` of the plane of width `w` at `base` (20_memory.md R52). -/
def readRow (m : Memory) (base w y : Nat) : List Byte := Memory.readBytes m (base + y * w) w

/-- The plane of height `h` and width `w` at `base`, row-major (20_memory.md R52). -/
def readPlane (m : Memory) (base h w : Nat) : Plane := (List.range h).map fun y => readRow m base w y

/-- N(dy, dx) over the plane in memory (40_predictors.md R87, 20_memory.md R52). -/
def memSample (m : Memory) (base w y x dy dx : Nat) : Byte :=
  if dy ≤ y && dx ≤ x then Memory.read m (base + (y - dy) * w + (x - dx)) else 0

/-- The five neighbours over the plane in memory (43_commands.md R141). -/
def memNeighbours (m : Memory) (base w y x : Nat) : Neighbours :=
  { left := memSample m base w y x 0 1
    up := memSample m base w y x 1 0
    upperLeft := memSample m base w y x 1 1
    knightA := memSample m base w y x 2 1
    knightB := memSample m base w y x 1 2 }

/-- The address of one neighbour, if it exists. -/
def neighbourAddr (base w y x dy dx : Nat) : List Nat :=
  if dy ≤ y && dx ≤ x then [base + (y - dy) * w + (x - dx)] else []

/-- The addresses PRED reads: the neighbours that exist (20_memory.md R56, 43_commands.md R141; log 9). -/
def neighbourAddrs (base w y x : Nat) : List Nat :=
  neighbourAddr base w y x 0 1 ++ neighbourAddr base w y x 1 0 ++ neighbourAddr base w y x 1 1
    ++ neighbourAddr base w y x 2 1 ++ neighbourAddr base w y x 1 2

/-- The addresses COST reads: rows y-2 to y, those that exist (20_memory.md R56, 43_commands.md R142; log 9). -/
def costAddrs (base w y : Nat) : List Nat := addrRange (base + (y - 2) * w) ((min y 2 + 1) * w)

/-- The row `d` rows above row `y` of the plane in memory, zeros where there is none (10_state.md R43). -/
def rowAbove (m : Memory) (base w y d : Nat) : List Byte :=
  if d ≤ y then readRow m base w (y - d) else zeroRow w

/-- transpose(P) of a plane of width `w` (00_scope.md R11, 42_channel_pipeline.md R125). -/
def transpose (w : Nat) (P : Plane) : Plane := (List.range w).map fun j => P.map fun row => row.getD j 0

/-- The bytes of a plane as it lies in memory (20_memory.md R52). -/
def planeBytes (P : Plane) : List Byte := P.flatten

end Sys2Proof.Machine
end

