-- ==== Sys2Proof/Machine/Predict.lean ====
section
/-! DEFINITION. The predictor engine: the seven predictors, residual and reconstruction of a pixel, residual rows and their costs (spec 40_predictors.md, 41_scanline_codec.md R99, R100). -/

namespace Sys2Proof.Machine

/-- Predictor 4, Paeth, full-width integers, ties to `a`, then `b` (40_predictors.md R93; log 21). -/
def paeth (a b c : Int) : Int :=
  let p := a + b - c
  if (p - a).natAbs ≤ (p - b).natAbs && (p - a).natAbs ≤ (p - c).natAbs then a
  else if (p - b).natAbs ≤ (p - c).natAbs then b
  else c

/-- The predicted value, unreduced (40_predictors.md R89 to R95). -/
def predict (k : Pred) (n : Neighbours) : Int :=
  match k with
  | .none => 0
  | .left => n.left.toNat
  | .up => n.up.toNat
  | .average => ((n.left.toNat + n.up.toNat) / 2 : Nat)
  | .paeth => paeth n.left.toNat n.up.toNat n.upperLeft.toNat
  | .linear => (n.left.toNat : Int) + n.up.toNat - n.upperLeft.toNat
  | .knight => ((n.knightA.toNat + n.knightB.toNat) / 2 : Nat)

/-- The seven predictors in the order of their ids (00_scope.md R2). -/
def allPreds : List Pred := [.none, .left, .up, .average, .paeth, .linear, .knight]

/-- The predictor with an id, if there is one (00_scope.md R2). -/
def predOfId (k : Nat) : Option Pred := allPreds[k]?

/-- The residual byte of a pixel (40_predictors.md R97). -/
def residual (k : Pred) (n : Neighbours) (sample : Byte) : Byte := mod256 ((sample.toNat : Int) - predict k n)

/-- The sample of a residual byte (40_predictors.md R98). -/
def reconstruct (k : Pred) (n : Neighbours) (r : Byte) : Byte := mod256 (predict k n + s8 r)

/-- The residual row of predictor `k` (40_predictors.md R97). -/
def residualRow (k : Pred) (row prior priorprior : List Byte) : List Byte :=
  (List.range row.length).map fun x => residual k (neighboursAt row prior priorprior x) (row.getD x 0)

/-- The escape-7 residual row (41_scanline_codec.md R100). -/
def deltaRow (row prior : List Byte) : List Byte :=
  (List.range row.length).map fun x => mod256 (((row.getD x 0).toNat : Int) - (sampleBack prior x 0).toNat)

/-- The eight candidate rows, ids 0 to 7 in order (41_scanline_codec.md R101). -/
def candidateRows (row prior priorprior : List Byte) : List (List Byte) :=
  allPreds.map (fun k => residualRow k row prior priorprior) ++ [deltaRow row prior]

/-- The candidate row of filter id `k`, if 0 to 7 (41_scanline_codec.md R99, R100). -/
def candidateRow (k : Nat) (row prior priorprior : List Byte) : Option (List Byte) :=
  (candidateRows row prior priorprior)[k]?

/-- The cost of a residual row: the sum of the absolute signed residuals (41_scanline_codec.md R99). -/
def rowCost (r : List Byte) : Nat := (r.map fun b => (s8 b).natAbs).sum

end Sys2Proof.Machine
end

