-- ==== Sys2Proof/Machine/Codec.lean ====
section
/-! DEFINITION. The scanline codec (spec 41_scanline_codec.md): filter selection and the encoder; the effect of each filter record on the engine's hidden state; the record fetch and the decoder; and the meanings of the nine records. -/

namespace Sys2Proof.Machine

/-- The hidden state at the start of a plane of width `w`: both history rows all zero (10_state.md R43,
41_scanline_codec.md R106, R109). -/
def engineStart (w : Nat) : Engine :=
  { width := w, y := 0, cur := 0, prior := zeroRow w, priorprior := zeroRow w, cands := [], costs := [],
    rows := [], stream := [], s0 := [], s1 := [], c0 := [], c1 := [] }

/-! ### Selection and the encoder -/

/-- Continue the search for the first minimum: `best` so far with `bestCost`, `k` the next id
(41_scanline_codec.md R106). -/
def selectFrom (best bestCost k : Nat) : List Nat → Nat
  | [] => best
  | c :: cs => if c < bestCost then selectFrom k c (k + 1) cs else selectFrom best bestCost (k + 1) cs

/-- The least id with the least cost (41_scanline_codec.md R103). -/
def selectFilter : List Nat → Nat
  | [] => 0
  | c :: cs => selectFrom 0 c 1 cs

/-- Every sample of the row equals its first (41_scanline_codec.md R102). -/
def isConstant (row : List Byte) : Bool := row.all fun b => b == row.headD 0

/-- The record the encoder emits for a row: the escape-8 shortcut, the competition, or the restricted
set's Paeth record (41_scanline_codec.md R101 to R104, R106). -/
def encodeRecord (full : Bool) (row prior priorprior : List Byte) : List Byte :=
  if full then
    if isConstant row then [0x08, row.headD 0]
    else
      let cands := candidateRows row prior priorprior
      let k := selectFilter (cands.map rowCost)
      BitVec.ofNat 8 k :: cands.getD k []
  else 0x04 :: residualRow .paeth row prior priorprior

/-- The candidate rows the engine holds for a row: none where the row is not competed for
(10_state.md R44, 41_scanline_codec.md R102, R108). -/
def rowCandidates (full : Bool) (row prior priorprior : List Byte) : List (List Byte) :=
  if full && !isConstant row then candidateRows row prior priorprior else []

/-- One pass of the encoder's loop: emit the record, advance the history (41_scanline_codec.md R104 to R106). -/
def encodeRow (full : Bool) (e : Engine) (row : List Byte) : Engine :=
  { e with
    y := e.y + 1
    cands := rowCandidates full row e.prior e.priorprior
    costs := (rowCandidates full row e.prior e.priorprior).map rowCost
    stream := e.stream ++ encodeRecord full row e.prior e.priorprior
    cur := e.cur + (encodeRecord full row e.prior e.priorprior).length
    priorprior := e.prior
    prior := row }

/-- The engine after encoding a plane of width `w` (41_scanline_codec.md R106). -/
def encodeRows (full : Bool) (w : Nat) (P : Plane) : Engine := P.foldl (encodeRow full) (engineStart w)

/-- EncodePlane (41_scanline_codec.md R106). -/
def encodePlane (full : Bool) (w : Nat) (P : Plane) : List Byte := (encodeRows full w P).stream

/-! ### The records' effects on the hidden state -/

/-- Rebuild a row pixel by pixel from its residual bytes: each pixel's `left` is the one just
reconstructed (41_scanline_codec.md R110 to R116, common part). -/
def decodePixels (k : Pred) (prior priorprior : List Byte) : List Byte → List Byte → List Byte
  | row, [] => row
  | row, b :: bs =>
    decodePixels k prior priorprior
      (row ++ [reconstruct k (neighboursAt row prior priorprior row.length) b]) bs

/-- The escape-7 row: clipped, not wrapped (41_scanline_codec.md R117). -/
def decodeDelta (prior body : List Byte) : List Byte :=
  (List.range body.length).map fun x => clipByte ((sampleBack prior x 0).toNat + s8 (body.getD x 0))

/-- After a record of `n` bytes: the row joins the plane, the history and the cursor advance
(41_scanline_codec.md R121). -/
def advanceRow (row : List Byte) (n : Nat) (e : Engine) : Engine :=
  { e with rows := e.rows ++ [row], priorprior := e.prior, prior := row, cur := e.cur + n, y := e.y + 1 }

/-- The effect of a record with id 0 to 6 (41_scanline_codec.md R110 to R116). -/
def pixelRecord (k : Pred) (body : List Byte) (e : Engine) : Engine :=
  advanceRow (decodePixels k e.prior e.priorprior [] body) (1 + body.length) e

/-- The effect of a record with id 7 (41_scanline_codec.md R117). -/
def deltaRecord (body : List Byte) (e : Engine) : Engine :=
  advanceRow (decodeDelta e.prior body) (1 + body.length) e

/-- The effect of a record with id 8 (41_scanline_codec.md R118). -/
def uniformRecord (value : Byte) (e : Engine) : Engine :=
  advanceRow (List.replicate e.width value) 2 e

/-- The effect of one filter record on the hidden state; the decoder gives it records only. -/
def recordStep (i : Instr) (e : Engine) : Engine :=
  match i with
  | .nop _ _ _ _ => e
  | .encp _ _ _ _ => e
  | .decp _ _ _ _ => e
  | .encc _ _ _ _ => e
  | .decc _ _ _ _ => e
  | .pred _ _ _ _ => e
  | .cost _ _ _ _ => e
  | .srst _ => e
  | .f0 body => pixelRecord .none body e
  | .f1 body => pixelRecord .left body e
  | .f2 body => pixelRecord .up body e
  | .f3 body => pixelRecord .average body e
  | .f4 body => pixelRecord .paeth body e
  | .f5 body => pixelRecord .linear body e
  | .f6 body => pixelRecord .knight body e
  | .f7 body => deltaRecord body e
  | .f8 value => uniformRecord value e

/-! ### The decoder -/

/-- What fetching the record at the cursor gives: a record, a stream error, or the offsets whose access the
platform refused. -/
inductive RecordFetch where
  | record (i : Instr)
  | underrun
  | badFilter
  | refusedAt (offsets : List Nat)
  deriving DecidableEq, Repr

/-- Those of the `n` offsets from `start` on whose byte cannot be read. -/
def unreadable (read : Nat → Option Byte) (start n : Nat) : List Nat :=
  (addrRange start n).filter fun o => (read o).isNone

/-- Fetch the record at cursor `cur` of a stream of `len` bytes and width `w`: end of stream, then the id,
then the length, then the operand bytes (41_scanline_codec.md R119, R120, R122, 60_exceptions.md R151). -/
def fetchRecord (len : Nat) (read : Nat → Option Byte) (w cur : Nat) : RecordFetch :=
  if len ≤ cur then .underrun
  else match read cur with
    | none => .refusedAt [cur]
    | some id =>
      match recordBodyLength w id with
      | none => .badFilter
      | some n =>
        if len < cur + 1 + n then .underrun
        else match unreadable read (cur + 1) n with
          | [] =>
            match recordOf id ((addrRange (cur + 1) n).map fun o => (read o).getD 0) with
            | .instr i => .record i
            | _ => .badFilter
          | o :: os => .refusedAt (o :: os)

/-- How decoding a plane ends. -/
inductive Decoding where
  | done (e : Engine)
  | failed (code : ErrCode) (info : Word)
  | refusedAt (offsets : List Nat)
  deriving DecidableEq, Repr

/-- DecodePlane's loop over the remaining rows (41_scanline_codec.md R122): fetch the record at the cursor
and run it. -/
def decodeRows (len : Nat) (read : Nat → Option Byte) (w : Nat) : Nat → Engine → Decoding
  | 0, e => .done e
  | h + 1, e =>
    match fetchRecord len read w e.cur with
    | .record i => decodeRows len read w h (recordStep i e)
    | .underrun => .failed .underrun (sat32 len)
    | .badFilter => .failed .badFilter (sat32 e.cur)
    | .refusedAt offsets => .refusedAt offsets

/-- Reading a byte string by offset. -/
def readList (bytes : List Byte) (o : Nat) : Option Byte := bytes[o]?

/-- Reading the source region by offset: none where the platform refuses the byte (43_commands.md R138,
60_exceptions.md R152). -/
def readSource (p : Platform) (m : Memory) (base o : Nat) : Option Byte :=
  if admits p .read (base + o) then some (Memory.read m (base + o)) else none

/-- DecodePlane(B, h, w) of a byte string (41_scanline_codec.md R122). -/
def decodePlane (bytes : List Byte) (h w : Nat) : Decoding :=
  decodeRows bytes.length (readList bytes) w h (engineStart w)

/-! ### The meanings of the records (R109: they act on the decoder's cursor and history) -/

/-- F0, None (41_scanline_codec.md R110). -/
def execF0 (body : List Byte) (s : State) : Host.Outcome State Fault Refusal :=
  .next { s with eng := recordStep (.f0 body) s.eng }

/-- F1, Left (41_scanline_codec.md R111). -/
def execF1 (body : List Byte) (s : State) : Host.Outcome State Fault Refusal :=
  .next { s with eng := recordStep (.f1 body) s.eng }

/-- F2, Up (41_scanline_codec.md R112). -/
def execF2 (body : List Byte) (s : State) : Host.Outcome State Fault Refusal :=
  .next { s with eng := recordStep (.f2 body) s.eng }

/-- F3, Average (41_scanline_codec.md R113). -/
def execF3 (body : List Byte) (s : State) : Host.Outcome State Fault Refusal :=
  .next { s with eng := recordStep (.f3 body) s.eng }

/-- F4, Paeth (41_scanline_codec.md R114). -/
def execF4 (body : List Byte) (s : State) : Host.Outcome State Fault Refusal :=
  .next { s with eng := recordStep (.f4 body) s.eng }

/-- F5, Linear (41_scanline_codec.md R115). -/
def execF5 (body : List Byte) (s : State) : Host.Outcome State Fault Refusal :=
  .next { s with eng := recordStep (.f5 body) s.eng }

/-- F6, Knight (41_scanline_codec.md R116). -/
def execF6 (body : List Byte) (s : State) : Host.Outcome State Fault Refusal :=
  .next { s with eng := recordStep (.f6 body) s.eng }

/-- F7, the whole-row signed delta (41_scanline_codec.md R117). -/
def execF7 (body : List Byte) (s : State) : Host.Outcome State Fault Refusal :=
  .next { s with eng := recordStep (.f7 body) s.eng }

/-- F8, the uniform row (41_scanline_codec.md R118). -/
def execF8 (value : Byte) (s : State) : Host.Outcome State Fault Refusal :=
  .next { s with eng := recordStep (.f8 value) s.eng }

end Sys2Proof.Machine
end

