-- ==== Sys2Proof/Machine/Channel.lean ====
section
/-! DEFINITION. The channel pipeline (spec 42_channel_pipeline.md): both trials, the choice of the smaller, and the decode that undoes it. -/

namespace Sys2Proof.Machine

/-- The engine after encoding one orientation of a plane of height `h` and width `w`: row-major, or the
transpose with the dimensions swapped (42_channel_pipeline.md R125, 43_commands.md R137). -/
def encodeOriented (full transposed : Bool) (h w : Nat) (P : Plane) : Engine :=
  if transposed then encodeRows full h (transpose w P) else encodeRows full w P

/-- What EncodeChannel returns (42_channel_pipeline.md R126): the component, the scan flag, both lengths. -/
structure ChannelCode where
  comp : List Byte
  flag : Bool
  lenRm : Nat
  lenTr : Nat
  deriving DecidableEq, Repr

/-- Keep the transposed trial only if it is strictly shorter (42_channel_pipeline.md R126, R127). -/
def chooseTrial (c0 c1 : List Byte) : ChannelCode :=
  if c1.length < c0.length then { comp := c1, flag := true, lenRm := c0.length, lenTr := c1.length }
  else { comp := c0, flag := false, lenRm := c0.length, lenTr := c1.length }

/-- The engine after both trials: S0, S1, C0 and C1 (42_channel_pipeline.md R126, 10_state.md R44). -/
def runTrials (full : Bool) (h w : Nat) (P : Plane) : Engine :=
  { encodeOriented full true h w P with
    s0 := (encodeOriented full false h w P).stream
    s1 := (encodeOriented full true h w P).stream
    c0 := Config.codec.compress (encodeOriented full false h w P).stream
    c1 := Config.codec.compress (encodeOriented full true h w P).stream }

/-- EncodeChannel(P, H, W, f) (42_channel_pipeline.md R126). -/
def encodeChannel (full : Bool) (h w : Nat) (P : Plane) : ChannelCode :=
  chooseTrial (runTrials full h w P).c0 (runTrials full h w P).c1

/-- Decode the records of a plane of height `h` and width `w` in one orientation
(42_channel_pipeline.md R128, 43_commands.md R138). -/
def decodeOriented (len : Nat) (read : Nat → Option Byte) (transposed : Bool) (h w : Nat) : Decoding :=
  if transposed then decodeRows len read h w (engineStart h) else decodeRows len read w h (engineStart w)

/-- The plane of height `h` the decoded rows give, transposed back where they are columns
(42_channel_pipeline.md R128, 43_commands.md R138). -/
def decodedPlane (transposed : Bool) (h : Nat) (e : Engine) : Plane :=
  if transposed then transpose h e.rows else e.rows

/-- DecodeChannel(C, H, W, s), up to the transposition back, which is `decodedPlane`
(42_channel_pipeline.md R128). -/
def decodeChannel (comp : List Byte) (h w : Nat) (flag : Bool) : Decoding :=
  match Config.codec.decompress comp with
  | none => .failed .decomp 0
  | some bytes => decodeOriented bytes.length (readList bytes) flag h w

end Sys2Proof.Machine
end

