-- ==== Sys2Proof/Machine/Commands.lean ====
section
/-! DEFINITION. The meanings of the seven commands and of SRST (spec 43_commands.md). A command has two steps: its acceptance while IDLE (R133) and its completion while BUSY (R135); exec gives the one the phase calls for (log 16). -/

namespace Sys2Proof.Machine

/-- The addresses of the source plane (20_memory.md R52, R56). -/
def planeAddrs (l : Latch) : List Nat := addrRange l.srcAddr.toNat (l.height.toNat * l.width.toNat)

/-- The source plane (20_memory.md R52). -/
def sourcePlane (s : State) : Plane :=
  readPlane s.mem s.lat.srcAddr.toNat s.lat.height.toNat s.lat.width.toNat

/-- Write the encoder's output: ERR_DST_CAP before any write if it is too long (43_commands.md R137, R139). -/
def storeEncoded (bs : List Byte) (done : State → State) (s : State) : State :=
  if s.lat.dstCap.toNat < bs.length then raiseDynamic .dstCap (sat32 bs.length) s
  else storeOutput bs done s

/-- ENCP's completion step (43_commands.md R137). -/
def completeEncp (fset orient : Bool) (s : State) : State :=
  match refusedOf s.platform .read (planeAddrs s.lat) with
  | [] =>
    let t := { s with eng := encodeOriented fset orient s.lat.height.toNat s.lat.width.toNat (sourcePlane s) }
    storeEncoded t.eng.stream
      (fun u => complete { u with regs := { u.regs with outLen := BitVec.ofNat 32 t.eng.stream.length } }) t
  | a :: as => raiseBus (a :: as) s

/-- Write a decoded plane, OUT_LEN and IN_USED (43_commands.md R138, R140). -/
def storePlane (P : Plane) (used : Nat) (s : State) : State :=
  storeOutput (planeBytes P)
    (fun u => complete
      { u with
        regs := { u.regs with
          outLen := BitVec.ofNat 32 (s.lat.width.toNat * s.lat.height.toNat)
          inUsed := BitVec.ofNat 32 used } }) s

/-- End a decode: store the plane, or the error the decoder met (43_commands.md R138, R140). -/
def finishDecode (transposed : Bool) (d : Decoding) (s : State) : State :=
  match d with
  | .done e =>
    let t := { s with eng := e }
    storePlane (decodedPlane transposed s.lat.height.toNat t.eng) t.eng.cur t
  | .failed code info => raiseDynamic code info s
  | .refusedAt offsets => raiseBus (offsets.map fun o => s.lat.srcAddr.toNat + o) s

/-- DECP's completion step (43_commands.md R138). -/
def completeDecp (orient : Bool) (s : State) : State :=
  finishDecode orient
    (decodeOriented s.lat.srcLen.toNat (readSource s.platform s.mem s.lat.srcAddr.toNat) orient
      s.lat.height.toNat s.lat.width.toNat) s

/-- SCAN_FLAGS with bit `c` set to `b`, the other bits unchanged (43_commands.md R139). -/
def setScanFlag (flags : BitVec 4) (c : BitVec 2) (b : Bool) : BitVec 4 :=
  if b then flags ||| (1#4 <<< c.toNat) else flags &&& ~~~(1#4 <<< c.toNat)

/-- ENCC's completion step (43_commands.md R139). -/
def completeEncc (chan : BitVec 2) (fset : Bool) (s : State) : State :=
  match refusedOf s.platform .read (planeAddrs s.lat) with
  | [] =>
    let t := { s with eng := runTrials fset s.lat.height.toNat s.lat.width.toNat (sourcePlane s) }
    let r := chooseTrial t.eng.c0 t.eng.c1
    storeEncoded r.comp
      (fun u => complete
        { u with
          regs := { u.regs with
            outLen := BitVec.ofNat 32 r.comp.length
            lenRm := sat32 r.lenRm
            lenTr := sat32 r.lenTr
            scanFlags := setScanFlag u.regs.scanFlags chan r.flag } }) t
  | a :: as => raiseBus (a :: as) s

/-- DECC's completion step (43_commands.md R140). -/
def completeDecc (s : State) : State :=
  match refusedOf s.platform .read (addrRange s.lat.srcAddr.toNat s.lat.srcLen.toNat) with
  | [] =>
    finishDecode s.lat.flag
      (decodeChannel (Memory.readBytes s.mem s.lat.srcAddr.toNat s.lat.srcLen.toNat) s.lat.height.toNat
        s.lat.width.toNat s.lat.flag) s
  | a :: as => raiseBus (a :: as) s

/-- A result register write and complete() (43_commands.md R141, R142). -/
def completeResult (v : Word) (s : State) : State := complete { s with regs := { s.regs with result := v } }

/-- PRED's completion step for the predictor `p` (43_commands.md R141). -/
def completePred (p : Pred) (s : State) : State :=
  match refusedOf s.platform .read
      (neighbourAddrs s.lat.srcAddr.toNat s.lat.width.toNat s.lat.predY.toNat s.lat.predX.toNat) with
  | [] =>
    completeResult
      (BitVec.ofInt 32
        (predict p (memNeighbours s.mem s.lat.srcAddr.toNat s.lat.width.toNat s.lat.predY.toNat s.lat.predX.toNat)))
      s
  | a :: as => raiseBusNoDst (a :: as) s

/-- The candidate row COST evaluates, from rows y-2 to y of the source plane (43_commands.md R142). -/
def costRow (k : Nat) (s : State) : Option (List Byte) :=
  candidateRow k
    (rowAbove s.mem s.lat.srcAddr.toNat s.lat.width.toNat s.lat.predY.toNat 0)
    (rowAbove s.mem s.lat.srcAddr.toNat s.lat.width.toNat s.lat.predY.toNat 1)
    (rowAbove s.mem s.lat.srcAddr.toNat s.lat.width.toNat s.lat.predY.toNat 2)

/-- COST's completion step for the candidate row `r` (43_commands.md R142). -/
def completeCost (r : List Byte) (s : State) : State :=
  match refusedOf s.platform .read
      (costAddrs s.lat.srcAddr.toNat s.lat.width.toNat s.lat.predY.toNat) with
  | [] => completeResult (BitVec.ofNat 32 (rowCost r)) s
  | a :: as => raiseBusNoDst (a :: as) s

/-- NOP (43_commands.md R136). -/
def execNop (chan : BitVec 2) (fset orient : Bool) (k : BitVec 4) (s : State) :
    Host.Outcome State Fault Refusal :=
  match s.phase with
  | .idle => .next (accept (cmdWord 0 0x0 chan fset orient k) s)
  | .busy => .next (complete s)

/-- ENCP (43_commands.md R137). -/
def execEncp (chan : BitVec 2) (fset orient : Bool) (k : BitVec 4) (s : State) :
    Host.Outcome State Fault Refusal :=
  match s.phase with
  | .idle => .next (accept (cmdWord 0 0x1 chan fset orient k) s)
  | .busy => .next (completeEncp fset orient s)

/-- DECP (43_commands.md R138). -/
def execDecp (chan : BitVec 2) (fset orient : Bool) (k : BitVec 4) (s : State) :
    Host.Outcome State Fault Refusal :=
  match s.phase with
  | .idle => .next (accept (cmdWord 0 0x2 chan fset orient k) s)
  | .busy => .next (completeDecp orient s)

/-- ENCC (43_commands.md R139). -/
def execEncc (chan : BitVec 2) (fset orient : Bool) (k : BitVec 4) (s : State) :
    Host.Outcome State Fault Refusal :=
  match s.phase with
  | .idle => .next (accept (cmdWord 0 0x3 chan fset orient k) s)
  | .busy => .next (completeEncc chan fset s)

/-- DECC (43_commands.md R140). -/
def execDecc (chan : BitVec 2) (fset orient : Bool) (k : BitVec 4) (s : State) :
    Host.Outcome State Fault Refusal :=
  match s.phase with
  | .idle => .next (accept (cmdWord 0 0x4 chan fset orient k) s)
  | .busy => .next (completeDecc s)

/-- PRED (43_commands.md R141). -/
def execPred (chan : BitVec 2) (fset orient : Bool) (k : BitVec 4) (s : State) :
    Host.Outcome State Fault Refusal :=
  match s.phase with
  | .idle => .next (accept (cmdWord 0 0x5 chan fset orient k) s)
  | .busy =>
    match predOfId k.toNat with
    | some p => .next (completePred p s)
    | none => .fault .latchedFilterId

/-- COST (43_commands.md R142). -/
def execCost (chan : BitVec 2) (fset orient : Bool) (k : BitVec 4) (s : State) :
    Host.Outcome State Fault Refusal :=
  match s.phase with
  | .idle => .next (accept (cmdWord 0 0x6 chan fset orient k) s)
  | .busy =>
    match costRow k.toNat s with
    | some r => .next (completeCost r s)
    | none => .fault .latchedFilterId

/-- SRST, in either phase; bits [31:1] of the word are ignored (43_commands.md R143). -/
def execSrst (_ignored : BitVec 31) (s : State) : Host.Outcome State Fault Refusal := .next (softReset s)

end Sys2Proof.Machine
end

