-- ==== Sys2Proof/Machine/Dispatch.lean ====
section
/-! DEFINITION. exec: one arm per instruction, one direct call of its meaning. -/

namespace Sys2Proof.Machine

/-- The meaning of an instruction. -/
def exec (i : Instr) (s : State) : Host.Outcome State Fault Refusal :=
  match i with
  | .nop chan fset orient k => Sys2Proof.Machine.execNop chan fset orient k s
  | .encp chan fset orient k => Sys2Proof.Machine.execEncp chan fset orient k s
  | .decp chan fset orient k => Sys2Proof.Machine.execDecp chan fset orient k s
  | .encc chan fset orient k => Sys2Proof.Machine.execEncc chan fset orient k s
  | .decc chan fset orient k => Sys2Proof.Machine.execDecc chan fset orient k s
  | .pred chan fset orient k => Sys2Proof.Machine.execPred chan fset orient k s
  | .cost chan fset orient k => Sys2Proof.Machine.execCost chan fset orient k s
  | .srst ignored => Sys2Proof.Machine.execSrst ignored s
  | .f0 body => Sys2Proof.Machine.execF0 body s
  | .f1 body => Sys2Proof.Machine.execF1 body s
  | .f2 body => Sys2Proof.Machine.execF2 body s
  | .f3 body => Sys2Proof.Machine.execF3 body s
  | .f4 body => Sys2Proof.Machine.execF4 body s
  | .f5 body => Sys2Proof.Machine.execF5 body s
  | .f6 body => Sys2Proof.Machine.execF6 body s
  | .f7 body => Sys2Proof.Machine.execF7 body s
  | .f8 value => Sys2Proof.Machine.execF8 value s

end Sys2Proof.Machine
end

