-- ==== Sys2Proof/Machine/Fetch.lean ====
section
/-! DEFINITION. How the block comes by what it runs: the next event of the script, and for it the instruction to run (a word written to CMD or CTRL, the latched command on the engine's turn) or the effect of an event that runs none. -/

namespace Sys2Proof.Machine

/-- What an event asks for. -/
inductive Fetched where
  /-- Run this instruction at this state. -/
  | run (i : Instr) (s : State)
  /-- No instruction: this is the next state. -/
  | done (s : State)
  | fault (r : Fault)
  | refused (r : Refusal)
  deriving DecidableEq, Repr

/-- A host write of `v` to CMD (43_commands.md R133): dropped while BUSY (R155); while IDLE a command word
runs its command, and any other word is accepted and rejected in the same step (30_encoding.md R72). -/
def fetchCmd (v : Word) (s : State) : Fetched :=
  match s.phase with
  | .busy => .done (overrun s)
  | .idle =>
    match decodeCmd v with
    | .instr i => .run i s
    | _ => .done (accept v s)

/-- A host write of `v` to CTRL (30_encoding.md R73, 10_state.md R21). -/
def fetchCtrl (v : Word) (s : State) : Fetched :=
  match decodeCtrl v with
  | .instr i => .run i s
  | _ => .done s

/-- A host write of `v` at a window offset (43_commands.md R145, 10_state.md R17). -/
def fetchWrite (off : Nat) (v : Word) (s : State) : Fetched :=
  match regAt off with
  | some .cmd => fetchCmd v s
  | some .ctrl => fetchCtrl v s
  | some r => .done (writeReg r v s)
  | none => .done s

/-- The engine's turn (43_commands.md R135): while BUSY the latched command runs its completion step; while
IDLE the engine has no enabled step. -/
def fetchEngine (s : State) : Fetched :=
  match s.phase with
  | .idle => .done s
  | .busy =>
    match decodeCmd s.lat.word with
    | .instr i => .run i s
    | _ => .fault .latchedNoCommand

/-- What an event asks for, the event being taken off the script already (00_scope.md R6). -/
def fetchEvent (e : Event) (s : State) : Fetched :=
  match e with
  | .hostWrite addr size v =>
    match windowHit s.platform addr size with
    | .outside => .done s
    | .hit off => fetchWrite off v s
    | .undefined => .refused .registerAccess
  | .hostRead addr size =>
    match windowHit s.platform addr size with
    | .outside => .done s
    | .hit off => .done (hostReadReg off s)
    | .undefined => .refused .registerAccess
  | .memWrite a b => .done (hostStore a b s)
  | .memRead a => .done (hostLoad a s)
  | .irqSample => .done (sampleIrq s)
  | .engine => fetchEngine s
  | .gate =>
    match s.phase with
    | .idle => .refused .platformGating
    | .busy => .done (markHazard true s)
  | .remap base len => .done (remapRange ⟨base, len⟩ s)

/-- What the state asks for: the head of the script; with an empty script the engine's turn, so that a
command in progress is never stuck (43_commands.md R135). -/
def fetchNext (s : State) : Fetched :=
  match s.script with
  | [] => fetchEngine s
  | e :: es => fetchEvent e { s with script := es }

/-- A plane one sample wide and one high for `placeRecord`: source at 0, destination at 16, BUSY with DECP. -/
def oneSampleDecode : Latch :=
  { op := 2, chan := 0, fset := false, orient := false, k := 0, rsv := 0, width := 1, height := 1,
    srcAddr := 0, srcLen := 2, dstAddr := 16, dstCap := 1, predY := 0, predX := 0, flag := false }

/-- Place a record where the decoder fetches next: the two bytes at the source of a DECP in progress whose
plane is one sample (log 17). -/
def placeRecord (id : Byte) (s : State) : State :=
  { s with
    phase := .busy, lat := oneSampleDecode, guards := [guardOf oneSampleDecode], script := []
    mem := Memory.writeBytes s.mem 0 [id, 0] }

/-- Place a word as the next host write to a register at an offset, the block IDLE (log 17). -/
def placeWrite (off w : Nat) (s : State) : State :=
  { s with
    phase := .idle
    script := .hostWrite (s.platform.regBase + off) 4 (BitVec.ofNat 32 w) :: s.script }

/-- Place a word of the opcode table where the next step fetches it, in the space `decodeTableWord` reads
it in (log 17, 18). -/
def placeWord (nbits w : Nat) (s : State) : State :=
  if nbits ≤ 8 then
    match decodeRecord 1 [BitVec.ofNat 8 w, 0] with
    | .instr _ => placeRecord (BitVec.ofNat 8 w) s
    | _ => placeWrite 0x08 w s
  else
    match decodeCmd (BitVec.ofNat 32 w) with
    | .instr _ => placeWrite 0x0C w s
    | _ => if (ctrlRow (BitVec.ofNat 32 w)).isSome then placeWrite 0x08 w s else placeWrite 0x0C w s

end Sys2Proof.Machine
end

