-- ==== Sys2Proof/Machine/Step.lean ====
section
/-! DEFINITION. The step: take the next event and run what it asks for; and the placing of a word for the next step to fetch. -/

namespace Sys2Proof.Machine

/-- One model step: one host access, one acceptance or one completion (00_scope.md R6). -/
def step (s : State) : Host.Outcome State Fault Refusal :=
  match fetchNext s with
  | .run i t => exec i t
  | .done t => .next t
  | .fault r => .fault r
  | .refused r => .refused r

/-- The state with a word of the opcode table placed where step fetches its next instruction (log 17, 18). -/
def State.withFetchWord (s : State) (nbits w : Nat) : State := placeWord nbits w s

end Sys2Proof.Machine
end

