-- ==== Sys2Proof/Machine/HostAsm.lean ====
section
/-! DEFINITION. The host assembly of 30_encoding.md R84 and its pseudo-instructions R85, as pieces of a script. A WAIT is written with the number of polls it takes (log 25). -/

namespace Sys2Proof.Machine

/-- The window offset of a register (10_state.md R18). -/
def regOffset : RegName → Nat
  | .id => 0x00
  | .version => 0x04
  | .ctrl => 0x08
  | .cmd => 0x0C
  | .status => 0x10
  | .errInfo => 0x14
  | .irqEn => 0x18
  | .scanFlags => 0x1C
  | .width => 0x20
  | .height => 0x24
  | .srcAddr => 0x28
  | .srcLen => 0x2C
  | .dstAddr => 0x30
  | .dstCap => 0x34
  | .outLen => 0x38
  | .inUsed => 0x3C
  | .lenRm => 0x40
  | .lenTr => 0x44
  | .predY => 0x48
  | .predX => 0x4C
  | .result => 0x50

/-- WR REG, v (R84). -/
def asmWr (p : Platform) (r : RegName) (v : Word) : Event := .hostWrite (p.regBase + regOffset r) 4 v

/-- RD REG (R84). -/
def asmRd (p : Platform) (r : RegName) : Event := .hostRead (p.regBase + regOffset r) 4

/-- WAIT REG.FIELD, as `n` reads of REG (R84). -/
def asmWait (p : Platform) (r : RegName) (n : Nat) : List Event := List.replicate n (asmRd p r)

/-- MEMW addr, bytes (R84). -/
def asmMemw (a : Word) : List Byte → List Event
  | [] => []
  | b :: bs => .memWrite a b :: asmMemw (a + 1) bs

/-- MEMR addr, n (R84). -/
def asmMemr (a : Word) : Nat → List Event
  | 0 => []
  | n + 1 => .memRead a :: asmMemr (a + 1) n

/-- The command words of R84. -/
def asmNop : Word := cmdWord 0 0x0 0 false false 0

/-- ENCP [fset] [orient] (R84). -/
def asmEncp (fset orient : Bool) : Word := cmdWord 0 0x1 0 fset orient 0

/-- DECP [orient] (R84). -/
def asmDecp (orient : Bool) : Word := cmdWord 0 0x2 0 false orient 0

/-- ENCC chan [fset] (R84). -/
def asmEncc (chan : BitVec 2) (fset : Bool) : Word := cmdWord 0 0x3 chan fset false 0

/-- DECC chan (R84). -/
def asmDecc (chan : BitVec 2) : Word := cmdWord 0 0x4 chan false false 0

/-- PRED k (R84). -/
def asmPred (k : BitVec 4) : Word := cmdWord 0 0x5 0 false false k

/-- COST k (R84). -/
def asmCost (k : BitVec 4) : Word := cmdWord 0 0x6 0 false false k

/-- RUN: the CMD write, the engine's turn, and the poll that sees the end (R85). -/
def asmRun (p : Platform) (word : Word) : List Event := asmWr p .cmd word :: .engine :: asmWait p .status 1

/-- SRST (R85). -/
def asmSrst (p : Platform) : List Event := [asmWr p .ctrl 0x00000001]

/-- ACK (R85). -/
def asmAck (p : Platform) : List Event := [asmWr p .status 0x0000000E]

/-- SETUP w, h, sa, sl, da, dc (R85). -/
def asmSetup (p : Platform) (w h sa sl da dc : Word) : List Event :=
  [asmWr p .width w, asmWr p .height h, asmWr p .srcAddr sa, asmWr p .srcLen sl, asmWr p .dstAddr da,
   asmWr p .dstCap dc]

/-- SETXY y, x (R85). -/
def asmSetxy (p : Platform) (y x : Word) : List Event := [asmWr p .predY y, asmWr p .predX x]

end Sys2Proof.Machine
end

