-- ==== Sys2Proof/Safety.lean ====
section
/-! DEFINITION. The invariant every step keeps, and what counts as a run a claim speaks of: one whose hazard mark is clear (10_state.md R42). -/

namespace Sys2Proof.Machine

/-- The run has broken none of the host's duties (10_state.md R42, 70_reset_and_hazards.md R172 to R174). -/
def State.covered (s : State) : Prop := s.hazard = false

/-- What holds in every state a run reaches. -/
structure State.Inv (s : State) : Prop where
  /-- The memory keeps its canonical form. -/
  memWf : Memory.wf s.mem = true
  /-- At most one of DONE and ERR (10_state.md R23). -/
  doneErr : s.status.done = true → s.status.err = false
  /-- BUSY implies DONE = ERR = 0 (10_state.md R23). -/
  busyFlags : s.phase = .busy → s.status.done = false ∧ s.status.err = false
  /-- While BUSY no error code or information is held (43_commands.md R133). -/
  busyNoError : s.phase = .busy → s.status.errcode = .none ∧ s.regs.errInfo = 0
  /-- A command in progress passed every static check (43_commands.md R133, 60_exceptions.md R150). -/
  busyChecked : s.phase = .busy → staticCheck s.platform s.lat = none
  /-- While BUSY, CMD holds the word of the running command (60_exceptions.md R155). -/
  busyCmd : s.phase = .busy → s.regs.cmd = s.lat.word
  /-- While BUSY the regions of the running command are guarded (70_reset_and_hazards.md R172, R173). -/
  busyGuard : s.phase = .busy → guardOf s.lat ∈ s.guards
  /-- While BUSY the result registers read 0 (70_reset_and_hazards.md R175). -/
  busyResults : s.phase = .busy → s.regs.outLen = 0 ∧ s.regs.inUsed = 0 ∧ s.regs.lenRm = 0 ∧ s.regs.lenTr = 0
    ∧ s.regs.result = 0
  /-- After a successful command no error code is held (60_exceptions.md R148). -/
  doneCode : s.status.done = true → s.status.errcode = .none ∧ s.regs.errInfo = 0
  /-- ERR has a code (60_exceptions.md R148, R149). -/
  errCode : s.status.err = true → s.status.errcode ≠ .none
  /-- An error code goes with zero result registers (60_exceptions.md R149). -/
  errResults : s.status.errcode ≠ .none → s.regs.outLen = 0 ∧ s.regs.inUsed = 0 ∧ s.regs.lenRm = 0
    ∧ s.regs.lenTr = 0 ∧ s.regs.result = 0

end Sys2Proof.Machine
end

