-- ==== Sys2Proof/Certificates/Slice0/Obligations.lean ====
section
/-! DEFINITION. The statements for the provers. Each is a property of the model taken from the numbered rules of spec/; its docstring names them. Statements about a free value hold for every value of it. -/

namespace Sys2Proof.Machine

/-- Frame: what no command, record or register write but the one it names touches. That the latch keeps its
last contents after the end of a command is the model's choice, where the spec admits any value (log 26); the
script, the value last read and the guards are the model's own fields (log 1, 23, 12). -/
def State.keeps (s t : State) : Prop :=
  t.lat = s.lat ∧ t.hazard = s.hazard ∧ t.platform = s.platform ∧ t.script = s.script
    ∧ t.readData = s.readData ∧ t.guards = s.guards

/-- `t` is `s` after complete() (43_commands.md R134), registers and memory aside: IDLE, DONE set, every
other flag as before. -/
def State.endsDone (s t : State) : Prop :=
  t.phase = .idle ∧ t.status = { s.status with done := true } ∧ s.keeps t

/-- `t` is `s` after the error end of a completion step (60_exceptions.md R149): IDLE, ERR and the code set,
ERR_INFO written, every other register and flag as before, and no byte outside the destination region changed
(20_memory.md R57). For PRED and COST, which have no destination region, see log 7. -/
def State.endsError (s t : State) (code : ErrCode) (info : Word) : Prop :=
  t.phase = .idle ∧ t.status = { s.status with err := true, errcode := code }
    ∧ t.regs = { s.regs with errInfo := info } ∧ s.keeps t
    ∧ ∀ a, inRegion s.lat.dstRegion a = false → Memory.read t.mem a = Memory.read s.mem a

/-- The platform admits every access of the kind to `[base, base + n)`. -/
abbrev admitted (p : Platform) (k : Access) (base n : Nat) : Prop :=
  ∀ a ∈ addrRange base n, admits p k a = true

/-- Some access of the kind to `[base, base + n)` is refused. -/
abbrev someRefused (p : Platform) (k : Access) (base n : Nat) : Prop :=
  ∃ a ∈ addrRange base n, admits p k a = false

/-- Running the record `i` at `s` gives a row of `len` samples, sample `x` being `pixel row x`; the row joins
the plane, the history and the cursor advance by `n` bytes, and nothing else changes
(41_scanline_codec.md R121). -/
def recordGives (i : Instr) (s : State) (len n : Nat) (pixel : List Byte → Nat → Byte) : Prop :=
  ∃ row : List Byte,
    exec i s = .next
      { s with
        eng := { s.eng with
          rows := s.eng.rows ++ [row], prior := row, priorprior := s.eng.prior
          cur := s.eng.cur + n, y := s.eng.y + 1 } }
    ∧ row.length = len ∧ ∀ x, x < len → row.getD x 0 = pixel row x

/-- The plane `P` has `h` rows of `w` samples. -/
def isPlane (P : Plane) (h w : Nat) : Prop := P.length = h ∧ ∀ row ∈ P, row.length = w

/-- The bytes of `[dst, dst + |bs|)` read `bs`, every other byte as before. -/
def stored (s t : State) (dst : Nat) (bs : List Byte) : Prop :=
  ∀ a, Memory.read t.mem a
    = if dst ≤ a ∧ a < dst + bs.length then bs.getD (a - dst) 0 else Memory.read s.mem a

/-- The plane `P` of height `h` and width `w` lies row-major at `dst`, every other byte as before
(20_memory.md R52, R56). -/
def storedPlane (s t : State) (dst h w : Nat) (P : Plane) : Prop :=
  (∀ y, y < h → ∀ x, x < w → Memory.read t.mem (dst + y * w + x) = (P.getD y []).getD x 0)
    ∧ ∀ a, ¬ (dst ≤ a ∧ a < dst + h * w) → Memory.read t.mem a = Memory.read s.mem a

/-- How a decode to the destination ends: the plane, the bytes written and consumed; the decoder's error; or
ERR_BUS at one of the refused bytes the decode met (43_commands.md R138, R140; which bytes those are: log 8). -/
def decodeEnds (s t : State) (transposed : Bool) (d : Decoding) : Prop :=
  (∀ e, d = .done e →
      s.endsDone t
      ∧ t.regs = { s.regs with
          outLen := BitVec.ofNat 32 (s.lat.width.toNat * s.lat.height.toNat), inUsed := BitVec.ofNat 32 e.cur }
      ∧ storedPlane s t s.lat.dstAddr.toNat s.lat.height.toNat s.lat.width.toNat
          (decodedPlane transposed s.lat.height.toNat e))
  ∧ (∀ code info, d = .failed code info → s.endsError t code info)
  ∧ (∀ os, d = .refusedAt os → ∃ o ∈ os, s.endsError t .bus (BitVec.ofNat 32 (s.lat.srcAddr.toNat + o)))

/-- If the platform refuses one of the accesses, running `i` at `s` ends with ERR_BUS at one of those it
refuses (60_exceptions.md R152). -/
def refusalEnds (i : Instr) (s : State) (k : Access) (as : List Nat) : Prop :=
  refusedOf s.platform k as ≠ [] →
    ∃ t a, exec i s = .next t ∧ a ∈ refusedOf s.platform k as ∧ s.endsError t .bus (BitVec.ofNat 32 a)

/-- The sum of the absolute values of the bytes, each read as signed (41_scanline_codec.md R99). -/
def absSum (r : List Byte) : Nat := (r.map fun b => b.toInt.natAbs).sum

/-- The static conditions in the order they are tested, each with its code, its information word and, in its
condition, the commands it is tested for: 5 is PRED, 6 COST, 1 to 4 the commands with a destination, 1, 3, 5
and 6 those whose source is a plane, 2 and 4 those whose result is (60_exceptions.md R148, R150). -/
def staticCauses (p : Platform) (l : Latch) : List (Prop × ErrCode × Word) :=
  [ (l.rsv ≠ 0, .rsvd, l.word)
    , (7 ≤ l.op.toNat, .op, l.word)
    , (l.op.toNat ≠ 0 ∧ (l.width.toNat = 0 ∨ maxDim p < l.width.toNat), .dim, 0)
    , (l.op.toNat ≠ 0 ∧ (l.height.toNat = 0 ∨ maxDim p < l.height.toNat), .dim, 1)
    , (l.op.toNat = 5 ∧ 6 < l.k.toNat ∨ l.op.toNat = 6 ∧ 7 < l.k.toNat, .arg, 0)
    , ((l.op.toNat = 5 ∨ l.op.toNat = 6) ∧ l.height.toNat ≤ l.predY.toNat, .arg, 1)
    , (l.op.toNat = 5 ∧ l.width.toNat ≤ l.predX.toNat, .arg, 2)
    , (l.op.toNat ≠ 0 ∧ 2 ^ 32 < l.srcAddr.toNat + l.srcLen.toNat, .range, 0)
    , ((1 ≤ l.op.toNat ∧ l.op.toNat ≤ 4) ∧ 2 ^ 32 < l.dstAddr.toNat + l.dstCap.toNat, .range, 1)
    , ((1 ≤ l.op.toNat ∧ l.op.toNat ≤ 4)
        ∧ ∃ a, inRegion l.srcRegion a = true ∧ inRegion l.dstRegion a = true, .overlap, 0)
    , ((l.op.toNat = 1 ∨ l.op.toNat = 3 ∨ l.op.toNat = 5 ∨ l.op.toNat = 6)
        ∧ l.srcLen.toNat < l.width.toNat * l.height.toNat,
        .src, BitVec.ofNat 32 (l.width.toNat * l.height.toNat))
    , ((l.op.toNat = 2 ∨ l.op.toNat = 4) ∧ l.dstCap.toNat < l.width.toNat * l.height.toNat,
        .dstCap, BitVec.ofNat 32 (l.width.toNat * l.height.toNat)) ]

/-- `e` is the report of the first row whose condition holds, every row before it failing. -/
def firstCause (e : ErrCode × Word) : List (Prop × ErrCode × Word) → Prop
  | [] => False
  | (c, r) :: rest => c ∧ e = r ∨ ¬ c ∧ firstCause e rest

/-- The prior row `d` rows above row `y` of a plane of width `w`, zeros where there is none. -/
def historyRow (P : Plane) (w y d : Nat) : List Byte := if d ≤ y then P.getD (y - d) [] else zeroRow w

/-- The registers a host write stores to whole, or in their defined bits (10_state.md R18, 43_commands.md
R145), with the value a later read returns. -/
def storedValue (r : RegName) (v : Word) : Option Word :=
  match r with
  | .irqEn => some (v &&& 0x3)
  | .scanFlags => some (v &&& 0xF)
  | .width => some v
  | .height => some v
  | .srcAddr => some v
  | .srcLen => some v
  | .dstAddr => some v
  | .dstCap => some v
  | .predY => some v
  | .predX => some v
  | .id => none
  | .version => none
  | .ctrl => none
  | .cmd => none
  | .status => none
  | .errInfo => none
  | .outLen => none
  | .inUsed => none
  | .lenRm => none
  | .lenTr => none
  | .result => none

end Sys2Proof.Machine

open Sys2Proof Sys2Proof.Machine

/-! ### Encodings -/

/-- A few words written out from 30_encoding.md R69, R71, R73, R75, R77 decode to what they stand for, and the
words of R72 and R80 are rejected by name. -/
def Obligations.TableWordsDecode : Prop :=
  decodeCmd 0x00000F00 = .instr (.nop 0 false false 15)
  ∧ decodeCmd 0x000000C1 = .instr (.encp 0 true true 0)
  ∧ decodeCmd 0x00000082 = .instr (.decp 0 false true 0)
  ∧ decodeCmd 0x00000033 = .instr (.encc 3 false false 0)
  ∧ decodeCmd 0x00000024 = .instr (.decc 2 false false 0)
  ∧ decodeCmd 0x00000605 = .instr (.pred 0 false false 6)
  ∧ decodeCmd 0x00000706 = .instr (.cost 0 false false 7)
  ∧ decodeCtrl 0x00000001 = .instr (.srst 0)
  ∧ decodeRecord 3 [0x04, 10, 30, 0xFF, 9] = .instr (.f4 [10, 30, 0xFF])
  ∧ decodeRecord 3 [0x08, 7, 1] = .instr (.f8 7)
  ∧ decodeCmd 0x00001041 = .reservedBits
  ∧ decodeCmd 0x00000009 = .reservedOp
  ∧ decodeRecord 1 [255] = .badFilter

/-- Decoding an encoded instruction gives it back, with every operand at every value: the seven commands with
all four fields, SRST with its ignored bits, and the nine records of any width (30_encoding.md R69, R71, R73,
R75 to R77). -/
def Obligations.DecodeOfEncode : Prop :=
  ∀ (w : Nat) (i : Instr), i.fits w = true → decode w (encode i) = .instr i

/-- No bit of a command word is dropped: a word that decodes to an instruction is that instruction's encoding
(30_encoding.md R69, R70). -/
def Obligations.CmdWordOfItsInstruction : Prop :=
  ∀ (v : Word) (i : Instr), decodeCmd v = .instr i → encode i = .cmd v

/-- The first byte of a record fixes its length: 2 bytes for id 8, 1 + w for ids 0 to 7, and an id of 9 or
more is illegal; a record with all its bytes there decodes, to exactly the bytes it was read from
(30_encoding.md R78). -/
def Obligations.RecordLengthFromFirstByte : Prop :=
  ∀ (w : Nat) (id : Byte) (rest : List Byte),
    (9 ≤ id.toNat → decodeRecord w (id :: rest) = .badFilter)
    ∧ (id.toNat ≤ 8 → (if id.toNat = 8 then 1 else w) ≤ rest.length → ∃ i, decodeRecord w (id :: rest) = .instr i)
    ∧ ∀ i, decodeRecord w (id :: rest) = .instr i →
        id.toNat ≤ 8 ∧ i.isRecord = true ∧ i.fits w = true
        ∧ (recordBytes i).length = (if id.toNat = 8 then 2 else 1 + w)
        ∧ (id :: rest).take (recordBytes i).length = recordBytes i

/-- Every CMD word is one of the seven commands, whose encoding it then is, or rejected, the reserved bits first,
then OP 7 to 15; a rejected word written while IDLE is stored in CMD and ends at acceptance with ERR set and the word in ERR_INFO
(30_encoding.md R72, 60_exceptions.md R150). -/
def Obligations.RejectedCmdWordEndsAtAcceptance : Prop :=
  ∀ (s : State) (es : List Event) (v : Word), s.phase = .idle →
    s.script = .hostWrite (s.platform.regBase + 0x0C) 4 v :: es →
    (v >>> 12 ≠ 0 → ∃ t, step s = .next t ∧ t.phase = .idle ∧ t.regs.cmd = v ∧ t.regs.errInfo = v
        ∧ t.status.err = true ∧ t.status.done = false ∧ t.status.errcode = .rsvd ∧ t.mem = s.mem)
    ∧ (v >>> 12 = 0 → 7 ≤ (v &&& 0xF).toNat → ∃ t, step s = .next t ∧ t.phase = .idle ∧ t.regs.cmd = v
        ∧ t.regs.errInfo = v ∧ t.status.err = true ∧ t.status.done = false ∧ t.status.errcode = .op
        ∧ t.mem = s.mem)
    ∧ (v >>> 12 = 0 → (v &&& 0xF).toNat < 7 → ∃ i, decodeCmd v = .instr i ∧ encode i = .cmd v)

/-! ### The step -/

/-- A word written to CMD while IDLE that decodes to a command: the step is exec of it, the event taken off
the script (43_commands.md R133). That exec of a command is its acceptance while IDLE, and that the host's acts
stand in a script, is the model's choice (log 16, 1). -/
def Obligations.StepRunsWrittenCommand : Prop :=
  ∀ (s : State) (es : List Event) (v : Word) (i : Instr), s.phase = .idle →
    s.script = .hostWrite (s.platform.regBase + 0x0C) 4 v :: es → decodeCmd v = .instr i →
    step s = exec i { s with script := es }

/-- A word written to CTRL: with bit 0 set the step is exec of SRST, in either phase; with bit 0 clear nothing
happens (30_encoding.md R73). -/
def Obligations.StepRunsSoftReset : Prop :=
  ∀ (s : State) (es : List Event) (v : Word),
    s.script = .hostWrite (s.platform.regBase + 0x08) 4 v :: es →
    (v &&& 1 = 1 → ∃ ignored, step s = exec (.srst ignored) { s with script := es })
    ∧ (v &&& 1 = 0 → step s = .next { s with script := es })

/-- The engine's turn while BUSY, asked for by the script or with nothing left in it, is exec of the latched
command (43_commands.md R135). When the engine takes its turn R135 leaves open, any finite number of host steps
after acceptance; that an empty script gives the engine the turn, and that an engine event while IDLE does
nothing, are the model's choice (log 1). -/
def Obligations.StepRunsLatchedCommand : Prop :=
  ∀ (s : State),
    (∀ i, s.phase = .busy → s.script = [] → decodeCmd s.lat.word = .instr i → step s = exec i s)
    ∧ (∀ i es, s.phase = .busy → s.script = .engine :: es → decodeCmd s.lat.word = .instr i →
        step s = exec i { s with script := es })
    ∧ (∀ es, s.phase = .idle → s.script = .engine :: es → step s = .next { s with script := es })

/-- The decoder runs the records of its stream by exec: when the bytes at the cursor decode to a record, the
decoder goes on from the hidden state exec of that record leaves (41_scanline_codec.md R109, R122). -/
def Obligations.DecoderRunsRecordsByExec : Prop :=
  ∀ (s : State) (bytes : List Byte) (w h : Nat) (e : Engine) (i : Instr),
    decodeRecord w (bytes.drop e.cur) = .instr i →
    ∃ t, exec i { s with eng := e } = .next t
      ∧ decodeRows bytes.length (readList bytes) w (h + 1) e
          = decodeRows bytes.length (readList bytes) w h t.eng

/-! ### Acceptance -/

/-- Acceptance of a command written while IDLE (43_commands.md R133, 10_state.md R41): CMD holds the word, the
flags and the result registers are cleared, CMD_OVR stays, every parameter is latched, SCAN_FLAGS[CHAN] too, no
memory is touched; then the command is BUSY if the static checks pass, and else ends with their error. That the latch keeps what it
took after such an end is the model's choice (log 26). -/
def Obligations.AcceptanceLatchesAndClears : Prop :=
  ∀ (s : State) (v : Word) (i : Instr), s.phase = .idle → decodeCmd v = .instr i →
    ∃ t, exec i s = .next t
      ∧ t.lat = { op := v.extractLsb' 0 4, chan := v.extractLsb' 4 2, fset := v.getLsbD 6, orient := v.getLsbD 7,
                  k := v.extractLsb' 8 4, rsv := 0, width := s.regs.width, height := s.regs.height,
                  srcAddr := s.regs.srcAddr, srcLen := s.regs.srcLen, dstAddr := s.regs.dstAddr,
                  dstCap := s.regs.dstCap, predY := s.regs.predY, predX := s.regs.predX,
                  flag := s.regs.scanFlags.getLsbD (v.extractLsb' 4 2).toNat }
      ∧ t.regs = { s.regs with
          cmd := v, errInfo := t.regs.errInfo, outLen := 0, inUsed := 0, lenRm := 0, lenTr := 0, result := 0 }
      ∧ t.status.done = false ∧ t.status.cmdOvr = s.status.cmdOvr
      ∧ t.mem = s.mem ∧ t.hazard = s.hazard ∧ t.platform = s.platform ∧ t.script = s.script
      ∧ t.readData = s.readData
      ∧ (staticCheck s.platform t.lat = none →
          t.phase = .busy ∧ t.status.err = false ∧ t.status.errcode = .none ∧ t.regs.errInfo = 0)
      ∧ (∀ code info, staticCheck s.platform t.lat = some (code, info) →
          t.phase = .idle ∧ t.status.err = true ∧ t.status.errcode = code ∧ t.regs.errInfo = info)

/-- A latched command passes the static checks exactly under these conditions (60_exceptions.md R150); a NOP
passes whatever the registers hold (43_commands.md R136). -/
def Obligations.StaticCheckPassesExactly : Prop :=
  ∀ (p : Platform) (l : Latch), staticCheck p l = none ↔
    l.rsv = 0 ∧ l.op.toNat < 7 ∧ (l.op.toNat ≠ 0 →
      1 ≤ l.width.toNat ∧ l.width.toNat ≤ maxDim p ∧ 1 ≤ l.height.toNat ∧ l.height.toNat ≤ maxDim p
      ∧ (l.op.toNat = 5 → l.k.toNat ≤ 6 ∧ l.predY.toNat < l.height.toNat ∧ l.predX.toNat < l.width.toNat)
      ∧ (l.op.toNat = 6 → l.k.toNat ≤ 7 ∧ l.predY.toNat < l.height.toNat)
      ∧ l.srcAddr.toNat + l.srcLen.toNat ≤ 2 ^ 32
      ∧ (l.op.toNat ≤ 4 → l.dstAddr.toNat + l.dstCap.toNat ≤ 2 ^ 32
          ∧ ∀ a, ¬ (inRegion l.srcRegion a = true ∧ inRegion l.dstRegion a = true))
      ∧ (l.op.toNat = 1 ∨ l.op.toNat = 3 ∨ l.op.toNat = 5 ∨ l.op.toNat = 6 →
          l.width.toNat * l.height.toNat ≤ l.srcLen.toNat)
      ∧ (l.op.toNat = 2 ∨ l.op.toNat = 4 → l.width.toNat * l.height.toNat ≤ l.dstCap.toNat))

/-- The static error reported is that of the first condition that holds, in R150's order, each condition being
tested for the commands of R148's column (60_exceptions.md R150, R148): the rejected word, which field of the
shape, argument or region failed, or the exact number of bytes W * H, which fits in 32 bits. -/
def Obligations.StaticErrorInformation : Prop :=
  ∀ (p : Platform) (l : Latch) (code : ErrCode) (info : Word),
    (staticCheck p l = some (code, info) ↔ firstCause (code, info) (staticCauses p l))
    ∧ (staticCheck p l = some (code, info) → code = .src ∨ code = .dstCap →
        info.toNat = l.width.toNat * l.height.toNat)

/-- A CMD write while BUSY is dropped: CMD_OVR becomes 1 and nothing else changes, the running command's word and
latch included (60_exceptions.md R155). -/
def Obligations.CmdWriteWhileBusyIsDropped : Prop :=
  ∀ (s : State) (es : List Event) (v : Word), s.phase = .busy →
    s.script = .hostWrite (s.platform.regBase + 0x0C) 4 v :: es →
    step s = .next { s with script := es, status := { s.status with cmdOvr := true } }

/-! ### Completion of the commands -/

/-- NOP completes: DONE set, no register and no memory written (43_commands.md R136, R134). -/
def Obligations.NopCompletes : Prop :=
  ∀ chan fset orient k (s : State), s.phase = .busy →
    ∃ t, exec (.nop chan fset orient k) s = .next t ∧ s.endsDone t ∧ t.regs = s.regs ∧ t.mem = s.mem

/-- ENCP completes (43_commands.md R137): the encoder's stream of the plane, or of its transpose, is written to
the destination with OUT_LEN its length, and no other byte changes; a stream longer than DST_CAP is ERR_DST_CAP
with its length. -/
def Obligations.EncpCompletes : Prop :=
  ∀ chan fset orient k (s : State) (bs : List Byte), s.phase = .busy → Memory.wf s.mem = true →
    admitted s.platform .read s.lat.srcAddr.toNat (s.lat.height.toNat * s.lat.width.toNat) →
    admitted s.platform .write s.lat.dstAddr.toNat s.lat.dstCap.toNat →
    bs = (if orient then encodePlane fset s.lat.height.toNat (transpose s.lat.width.toNat (sourcePlane s))
          else encodePlane fset s.lat.width.toNat (sourcePlane s)) →
    ∃ t, exec (.encp chan fset orient k) s = .next t
      ∧ (bs.length ≤ s.lat.dstCap.toNat →
          s.endsDone t ∧ t.regs = { s.regs with outLen := BitVec.ofNat 32 bs.length }
          ∧ stored s t s.lat.dstAddr.toNat bs)
      ∧ (s.lat.dstCap.toNat < bs.length → s.endsError t .dstCap (sat32 bs.length))

/-- DECP completes (43_commands.md R138): the stream in the source region is decoded to a plane, transposed back
for ORIENT 1, and written row-major with OUT_LEN and IN_USED; or the decoder's error ends the command; or
ERR_BUS at a byte of the first refused group, a record's id byte and then its operand bytes in stream order. That
the address is one of the FIRST refused group is the model's reading of R151, where R152 read alone allows any
refused address of the command (log 8). A refused destination write has its own statement. -/
def Obligations.DecpCompletes : Prop :=
  ∀ chan fset orient k (s : State), s.phase = .busy → Memory.wf s.mem = true →
    admitted s.platform .write s.lat.dstAddr.toNat (s.lat.height.toNat * s.lat.width.toNat) →
    ∃ t, exec (.decp chan fset orient k) s = .next t
      ∧ decodeEnds s t orient
          (decodeOriented s.lat.srcLen.toNat (readSource s.platform s.mem s.lat.srcAddr.toNat) orient
            s.lat.height.toNat s.lat.width.toNat)

/-- ENCC completes (43_commands.md R139), whatever COMPRESS is: the component is written, OUT_LEN, LEN_RM, LEN_TR
and the one bit CHAN of SCAN_FLAGS too, every other register and byte as before; a component longer than DST_CAP is
ERR_DST_CAP, and SCAN_FLAGS is unchanged. -/
def Obligations.EnccCompletes : Prop :=
  ∀ chan fset orient k (s : State) (c : ChannelCode), s.phase = .busy → Memory.wf s.mem = true →
    admitted s.platform .read s.lat.srcAddr.toNat (s.lat.height.toNat * s.lat.width.toNat) →
    admitted s.platform .write s.lat.dstAddr.toNat s.lat.dstCap.toNat →
    c = encodeChannel fset s.lat.height.toNat s.lat.width.toNat (sourcePlane s) →
    ∃ t, exec (.encc chan fset orient k) s = .next t
      ∧ (c.comp.length ≤ s.lat.dstCap.toNat →
          s.endsDone t ∧ stored s t s.lat.dstAddr.toNat c.comp
          ∧ t.regs = { s.regs with
              outLen := BitVec.ofNat 32 c.comp.length
              lenRm := BitVec.ofNat 32 (min c.lenRm 0xFFFFFFFF)
              lenTr := BitVec.ofNat 32 (min c.lenTr 0xFFFFFFFF)
              scanFlags := t.regs.scanFlags }
          ∧ ∀ b : Fin 4, t.regs.scanFlags.getLsbD b
              = if b.val = chan.toNat then c.flag else s.regs.scanFlags.getLsbD b)
      ∧ (s.lat.dstCap.toNat < c.comp.length →
          s.endsError t .dstCap (BitVec.ofNat 32 (min c.comp.length 0xFFFFFFFF)))

/-- DECC completes (43_commands.md R140), whatever DECOMPRESS is: the whole source region is decompressed and
decoded in the orientation of the latched flag, and the plane is written; or ERR_DECOMP, or the decoder's error. -/
def Obligations.DeccCompletes : Prop :=
  ∀ chan fset orient k (s : State) (comp : List Byte), s.phase = .busy → Memory.wf s.mem = true →
    admitted s.platform .read s.lat.srcAddr.toNat s.lat.srcLen.toNat →
    admitted s.platform .write s.lat.dstAddr.toNat (s.lat.height.toNat * s.lat.width.toNat) →
    comp = Memory.readBytes s.mem s.lat.srcAddr.toNat s.lat.srcLen.toNat →
    ∃ t, exec (.decc chan fset orient k) s = .next t
      ∧ decodeEnds s t s.lat.flag (decodeChannel comp s.lat.height.toNat s.lat.width.toNat s.lat.flag)
      ∧ (Config.codec.decompress comp = none → s.endsError t .decomp 0)

/-- PRED completes (43_commands.md R141): for K from 0 to 6, in this order None, Left, Up, Average, Paeth, Linear
and Knight (40_predictors.md R89 to R95), and a pixel of the plane, RESULT is the prediction over the source plane,
unreduced, as 32-bit two's complement; no other register and no memory is written. -/
def Obligations.PredCompletes : Prop :=
  ∀ chan fset orient k (s : State), s.phase = .busy → k.toNat ≤ 6 →
    s.lat.predY.toNat < s.lat.height.toNat → s.lat.predX.toNat < s.lat.width.toNat →
    admitted s.platform .read s.lat.srcAddr.toNat (s.lat.height.toNat * s.lat.width.toNat) →
    ∃ t p, exec (.pred chan fset orient k) s = .next t ∧ predOfId k.toNat = some p ∧ s.endsDone t
      ∧ (k.toNat = 0 → p = .none) ∧ (k.toNat = 1 → p = .left) ∧ (k.toNat = 2 → p = .up)
      ∧ (k.toNat = 3 → p = .average) ∧ (k.toNat = 4 → p = .paeth) ∧ (k.toNat = 5 → p = .linear)
      ∧ (k.toNat = 6 → p = .knight)
      ∧ t.regs = { s.regs with
          result := BitVec.ofInt 32
            (predict p (planeNeighbours (sourcePlane s) s.lat.predY.toNat s.lat.predX.toNat)) }
      ∧ t.mem = s.mem

/-- COST completes (43_commands.md R142): for K from 0 to 7 and a row of the plane, RESULT is the cost of that
candidate row, the sum of the absolute signed residuals (41_scanline_codec.md R99), with no escape-8 shortcut; no
other register and no memory is written. -/
def Obligations.CostCompletes : Prop :=
  ∀ chan fset orient k (s : State) (P : Plane) (w y : Nat), s.phase = .busy → k.toNat ≤ 7 →
    P = sourcePlane s → w = s.lat.width.toNat → y = s.lat.predY.toNat → y < s.lat.height.toNat →
    admitted s.platform .read s.lat.srcAddr.toNat (s.lat.height.toNat * s.lat.width.toNat) →
    ∃ t r, exec (.cost chan fset orient k) s = .next t
      ∧ candidateRow k.toNat (P.getD y []) (historyRow P w y 1) (historyRow P w y 2) = some r
      ∧ s.endsDone t ∧ t.regs = { s.regs with result := BitVec.ofNat 32 (absSum r) } ∧ t.mem = s.mem

/-- SRST, in either phase (43_commands.md R143, 70_reset_and_hazards.md R168): every register reads its reset value,
IDLE, irq 0; hazard, the parameters and the host's script stay; an idle block changes no memory, and an abandoned
command's destination region is all that may change. -/
def Obligations.SoftResetCompletes : Prop :=
  ∀ ignored (s : State), ∃ t, exec (.srst ignored) s = .next t
    ∧ (∀ r, readReg r t = readReg r State.reset) ∧ t.phase = .idle ∧ irq t = false
    ∧ t.hazard = s.hazard ∧ t.platform = s.platform ∧ t.script = s.script ∧ t.readData = s.readData
    ∧ (s.phase = .idle → t.mem = s.mem)
    ∧ (Memory.wf s.mem = true → ∀ a, inRegion s.lat.dstRegion a = false →
        Memory.read t.mem a = Memory.read s.mem a)

/-! ### The filter records -/

/-- F0, None: the row is the record's bytes (41_scanline_codec.md R110). -/
def Obligations.RecordF0Decodes : Prop :=
  ∀ (body : List Byte) (s : State),
    recordGives (.f0 body) s body.length (1 + body.length) fun _ x => body.getD x 0

/-- F1, Left: each sample is the one before it plus its residual, modulo 256; the first is its residual
(41_scanline_codec.md R111). -/
def Obligations.RecordF1Decodes : Prop :=
  ∀ (body : List Byte) (s : State),
    recordGives (.f1 body) s body.length (1 + body.length) fun row x =>
      (if x = 0 then 0 else row.getD (x - 1) 0) + body.getD x 0

/-- F2, Up: the prior row plus the residual, modulo 256 (41_scanline_codec.md R112). -/
def Obligations.RecordF2Decodes : Prop :=
  ∀ (body : List Byte) (s : State),
    recordGives (.f2 body) s body.length (1 + body.length) fun _ x => s.eng.prior.getD x 0 + body.getD x 0

/-- F3, Average: half the unwrapped sum of left and up, rounded down, plus the residual modulo 256
(41_scanline_codec.md R113). -/
def Obligations.RecordF3Decodes : Prop :=
  ∀ (body : List Byte) (s : State),
    recordGives (.f3 body) s body.length (1 + body.length) fun row x =>
      BitVec.ofNat 8 (((if x = 0 then 0 else row.getD (x - 1) 0).toNat + (s.eng.prior.getD x 0).toNat) / 2)
        + body.getD x 0

/-- F4, Paeth: the Paeth choice of left, up and upper left (its own statement below) plus the residual modulo 256,
a neighbour that does not exist being 0 (41_scanline_codec.md R114). -/
def Obligations.RecordF4Decodes : Prop :=
  ∀ (body : List Byte) (s : State),
    recordGives (.f4 body) s body.length (1 + body.length) fun row x =>
      BitVec.ofInt 8
          (paeth (if x = 0 then 0 else row.getD (x - 1) 0).toNat (s.eng.prior.getD x 0).toNat
            (if x = 0 then 0 else s.eng.prior.getD (x - 1) 0).toNat)
        + body.getD x 0

/-- F5, Linear: left plus up less upper left plus the residual, modulo 256 (41_scanline_codec.md R115). -/
def Obligations.RecordF5Decodes : Prop :=
  ∀ (body : List Byte) (s : State),
    recordGives (.f5 body) s body.length (1 + body.length) fun row x =>
      (if x = 0 then 0 else row.getD (x - 1) 0) + s.eng.prior.getD x 0
        - (if x = 0 then 0 else s.eng.prior.getD (x - 1) 0) + body.getD x 0

/-- F6, Knight: half the unwrapped sum of the two knight's-move samples, rounded down, plus the residual modulo 256;
the only record that reads the row two above (41_scanline_codec.md R116). -/
def Obligations.RecordF6Decodes : Prop :=
  ∀ (body : List Byte) (s : State),
    recordGives (.f6 body) s body.length (1 + body.length) fun _ x =>
      BitVec.ofNat 8
          (((if 1 ≤ x then s.eng.priorprior.getD (x - 1) 0 else 0).toNat
            + (if 2 ≤ x then s.eng.prior.getD (x - 2) 0 else 0).toNat) / 2)
        + body.getD x 0

/-- F7, the whole-row signed delta: the prior row plus the signed delta, clipped to 0 .. 255, not wrapped
(41_scanline_codec.md R117). -/
def Obligations.RecordF7Decodes : Prop :=
  ∀ (body : List Byte) (s : State),
    recordGives (.f7 body) s body.length (1 + body.length) fun _ x =>
      BitVec.ofInt 8 (max 0 (min 255 ((s.eng.prior.getD x 0).toNat + (body.getD x 0).toInt)))

/-- F8, the uniform row: every sample of the row is the value byte, and the record is 2 bytes long
(41_scanline_codec.md R118). -/
def Obligations.RecordF8Decodes : Prop :=
  ∀ (value : Byte) (s : State), recordGives (.f8 value) s s.eng.width 2 fun _ _ => value

/-! ### Errors and the end of a stream -/

/-- An illegal filter id ends the decode with ERR_BAD_FILTER at its offset, and no byte after the id is read
(41_scanline_codec.md R119). -/
def Obligations.IllegalFilterIdEndsDecode : Prop :=
  ∀ (len : Nat) (read : Nat → Option Byte) (w h : Nat) (e : Engine) (id : Byte),
    e.cur < len → len < 2 ^ 32 → read e.cur = some id → 9 ≤ id.toNat →
    decodeRows len read w (h + 1) e = .failed .badFilter (BitVec.ofNat 32 e.cur)

/-- A stream that ends before a record is needed, or inside a legal record, ends the decode with ERR_UNDERRUN and
the stream's length (41_scanline_codec.md R120). -/
def Obligations.TruncatedStreamEndsDecode : Prop :=
  ∀ (len : Nat) (read : Nat → Option Byte) (w h : Nat) (e : Engine) (id : Byte), len < 2 ^ 32 →
    (len ≤ e.cur → decodeRows len read w (h + 1) e = .failed .underrun (BitVec.ofNat 32 len))
    ∧ (e.cur < len → read e.cur = some id → id.toNat ≤ 8 →
        len < e.cur + (if id.toNat = 8 then 2 else 1 + w) →
        decodeRows len read w (h + 1) e = .failed .underrun (BitVec.ofNat 32 len))

/-- A refused access, a read or a write, ends a command with ERR_BUS at one of the refused addresses, whichever it
is (60_exceptions.md R152, R151, R149). Reads: the plane (ENCP, ENCC), the source region (DECC), the neighbours
(PRED), the rows (COST); DECP's are in its completion statement. Writes of ENCP, DECP, ENCC and DECC: the bytes of
an output that the reads gave and that fits. Which bytes PRED and COST read, that they change no memory, and that
the address is one of the first refused group are the model's readings (log 9, 7, 8). -/
def Obligations.RefusedReadIsBusError : Prop :=
  ∀ chan fset orient k (s : State) (h w src dst : Nat), s.phase = .busy → Memory.wf s.mem = true →
    h = s.lat.height.toNat → w = s.lat.width.toNat → src = s.lat.srcAddr.toNat → dst = s.lat.dstAddr.toNat →
    refusalEnds (.encp chan fset orient k) s .read (addrRange src (h * w))
    ∧ refusalEnds (.encc chan fset orient k) s .read (addrRange src (h * w))
    ∧ refusalEnds (.decc chan fset orient k) s .read (addrRange src s.lat.srcLen.toNat)
    ∧ (k.toNat ≤ 6 →
        refusalEnds (.pred chan fset orient k) s .read (neighbourAddrs src w s.lat.predY.toNat s.lat.predX.toNat))
    ∧ (k.toNat ≤ 7 → refusalEnds (.cost chan fset orient k) s .read (costAddrs src w s.lat.predY.toNat))
    ∧ (∀ t, exec (.pred chan fset orient k) s = .next t ∨ exec (.cost chan fset orient k) s = .next t →
        t.mem = s.mem)
    ∧ (∀ bs, admitted s.platform .read src (h * w) →
        bs = (if orient then encodePlane fset h (transpose w (sourcePlane s))
              else encodePlane fset w (sourcePlane s)) →
        bs.length ≤ s.lat.dstCap.toNat →
        refusalEnds (.encp chan fset orient k) s .write (addrRange dst bs.length))
    ∧ (∀ c, admitted s.platform .read src (h * w) → c = encodeChannel fset h w (sourcePlane s) →
        c.comp.length ≤ s.lat.dstCap.toNat →
        refusalEnds (.encc chan fset orient k) s .write (addrRange dst c.comp.length))
    ∧ (∀ e, decodeOriented s.lat.srcLen.toNat (readSource s.platform s.mem src) orient h w = .done e →
        refusalEnds (.decp chan fset orient k) s .write (addrRange dst (h * w)))
    ∧ (∀ e, admitted s.platform .read src s.lat.srcLen.toNat →
        decodeChannel (Memory.readBytes s.mem src s.lat.srcLen.toNat) h w s.lat.flag = .done e →
        refusalEnds (.decc chan fset orient k) s .write (addrRange dst (h * w)))

/-- An error end is precise for the registers (60_exceptions.md R149): if the engine's turn ends a command with ERR,
only ERR_INFO, ERR and ERRCODE changed, and the result registers still read 0. -/
def Obligations.ErrorEndIsPrecise : Prop :=
  ∀ (s t : State), s.Inv → s.phase = .busy → s.script = [] → step s = .next t → t.status.err = true →
    t.phase = .idle ∧ t.status.done = false ∧ t.status.cmdOvr = s.status.cmdOvr ∧ t.status.errcode ≠ .none
    ∧ t.regs = { s.regs with errInfo := t.regs.errInfo }
    ∧ t.regs.outLen = 0 ∧ t.regs.inUsed = 0 ∧ t.regs.lenRm = 0 ∧ t.regs.lenTr = 0 ∧ t.regs.result = 0

/-! ### Invariants and whole-machine rules -/

/-- The invariant holds after reset. -/
def Obligations.ResetMeetsInvariant : Prop := State.reset.Inv

/-- Every step keeps the invariant, from every state that meets it (10_state.md R23, R42; 43_commands.md R133;
60_exceptions.md R148, R149; 70_reset_and_hazards.md R175). That the running command's regions are among the guards is
the model's reading of R172 (log 12). -/
def Obligations.StepKeepsInvariant : Prop := ∀ (s t : State), s.Inv → step s = .next t → t.Inv

/-- No step from a state that meets the invariant faults: the engine never finds a latched word that is no command
(43_commands.md R133, 60_exceptions.md R150). -/
def Obligations.InvariantExcludesFaults : Prop := ∀ (s : State) (r : Fault), s.Inv → step s ≠ .fault r

/-- A command in progress is never stuck (43_commands.md R135): with no act of the host pending, one step ends it,
with exactly one of DONE and ERR. R135 promises the completion step after some finite number of steps; that the
very next step with nothing pending is it is the model's choice (log 1). -/
def Obligations.BusyCommandEnds : Prop :=
  ∀ (s : State), s.Inv → s.phase = .busy → s.script = [] →
    ∃ t, step s = .next t ∧ t.phase = .idle ∧ t.status.done = !t.status.err ∧ t.script = []

/-- Confinement (20_memory.md R55, R57): a byte of the data space changes in a step only by the host's own store to
it, by a remap of it, or inside the destination region of a command in progress that has one. That NOP, PRED and COST
change no byte when they fail or are abandoned, whatever DST_ADDR and DST_CAP hold, is the model's reading (log 7);
what a remap leaves in its range is the model's choice (log 15). -/
def Obligations.OnlyTheseStepsChangeMemory : Prop :=
  ∀ (s t : State) (a : Nat), s.Inv → step s = .next t → Memory.read t.mem a ≠ Memory.read s.mem a →
    (∃ (w : Word) (b : Byte) (es : List Event), s.script = .memWrite w b :: es ∧ a = w.toNat)
    ∨ (∃ (base len : Nat) (es : List Event), s.script = .remap base len :: es ∧ base ≤ a ∧ a < base + len)
    ∨ (s.phase = .busy ∧ s.lat.hasDst = true ∧ inRegion s.lat.dstRegion a = true)

/-- No step clears the hazard mark (10_state.md R42, 70_reset_and_hazards.md R168). That no step changes the
parameters REG_BASE, MAX_DIM and BUS_ADMIT (00_scope.md R8), which stand in State, is the model's choice (log 2). -/
def Obligations.HazardIsSticky : Prop :=
  ∀ (s t : State), step s = .next t → t.platform = s.platform ∧ (s.hazard = true → t.hazard = true)

/-- A store by the host into a region of a command whose end is not yet observed sets hazard, BUSY or IDLE, and one
outside all of them does not (70_reset_and_hazards.md R172, R173, R179): the regions are those of the running
command and of the guards; a guard stays over every step but the host's seeing an end, a read of STATUS while IDLE
or irq seen at 1; so a store right after the end of a command is still a hazard. Which intervals are open, and that
the guards hold them, is the model's reading of those rules (log 12). -/
def Obligations.StoreToBusyRegionIsHazard : Prop :=
  ∀ (s : State) (w : Word) (b : Byte) (es : List Event), s.Inv →
    (s.script = .memWrite w b :: es → s.hazard = false →
      ∃ t, step s = .next t ∧ Memory.read t.mem w.toNat = b ∧ t.phase = s.phase
        ∧ (s.phase = .busy → s.lat.op ≠ 0 → inRegion s.lat.srcRegion w.toNat = true → t.hazard = true)
        ∧ (s.phase = .busy → s.lat.hasDst = true → inRegion s.lat.dstRegion w.toNat = true → t.hazard = true)
        ∧ (t.hazard = true ↔ ∃ g ∈ s.guards, inRegion g.src w.toNat = true ∨ inRegion g.dst w.toNat = true))
    ∧ (∀ t g, step s = .next t → g ∈ s.guards →
        g ∈ t.guards
        ∨ s.phase = .idle ∧ s.script.head? = some (.hostRead (s.platform.regBase + 0x10) 4)
        ∨ s.phase = .idle ∧ s.script.head? = some .irqSample ∧ irq s = true)
    ∧ (s.phase = .busy → s.script = .engine :: .memWrite w b :: es →
        (s.lat.op ≠ 0 ∧ inRegion s.lat.srcRegion w.toNat = true)
          ∨ (s.lat.hasDst = true ∧ inRegion s.lat.dstRegion w.toNat = true) →
        ∃ t u, step s = .next t ∧ t.phase = .idle ∧ step t = .next u ∧ u.hazard = true)

/-! ### The codec -/

/-- Residual and reconstruction (40_predictors.md R97, R98): both reduce modulo 256, the signed and the unsigned
reading of the residual reconstruct alike, and reconstruction inverts the residual. -/
def Obligations.ReconstructionInvertsResidual : Prop :=
  ∀ (k : Pred) (n : Neighbours) (sample r : Byte),
    ((residual k n sample).toNat : Int) = ((sample.toNat : Int) - predict k n) % 256
    ∧ ((reconstruct k n r).toNat : Int) = (predict k n + r.toInt) % 256
    ∧ ((reconstruct k n r).toNat : Int) = (predict k n + r.toNat) % 256
    ∧ reconstruct k n (residual k n sample) = sample

/-- The predictions' ranges (40_predictors.md R96): 0 .. 255, and -255 .. 510 for Linear, which is left + up -
upperLeft with no reduction and no clamping (R94). -/
def Obligations.PredictionRanges : Prop :=
  ∀ (k : Pred) (n : Neighbours),
    (k ≠ .linear → 0 ≤ predict k n ∧ predict k n ≤ 255)
    ∧ predict .linear n = (n.left.toNat : Int) + n.up.toNat - n.upperLeft.toNat
    ∧ -255 ≤ predict .linear n ∧ predict .linear n ≤ 510

/-- Paeth (40_predictors.md R93): the result is the neighbour whose distance to a + b - c is least, a preferred to b
and b to c. -/
def Obligations.PaethTakesClosestNeighbour : Prop :=
  ∀ (a b c : Byte),
    let p : Int := (a.toNat : Int) + b.toNat - c.toNat
    let v := paeth a.toNat b.toNat c.toNat
    let dist : Int → Nat := fun u => (p - u).natAbs
    (v = a.toNat ∨ v = b.toNat ∨ v = c.toNat)
    ∧ dist v ≤ dist a.toNat ∧ dist v ≤ dist b.toNat ∧ dist v ≤ dist c.toNat
    ∧ (dist a.toNat = dist v → v = a.toNat)
    ∧ (dist b.toNat = dist v → v = a.toNat ∨ v = b.toNat)

/-- The history rows give the neighbours of the plane (40_predictors.md R87, R88): for a pixel of the plane, the five
neighbours read from the row and the two rows above it are those of rule R87. -/
def Obligations.HistoryGivesPlaneNeighbours : Prop :=
  ∀ (P : Plane) (h w y x : Nat), isPlane P h w → y < h → x < w →
    neighboursAt (P.getD y []) (historyRow P w y 1) (historyRow P w y 2) x = planeNeighbours P y x

/-- The selection (41_scanline_codec.md R103): in the full set, for a row that is not constant, the record is the
candidate row of the least id with the least cost, the cost of a row being the sum of its absolute signed residuals
(R99). -/
def Obligations.LowestIdOfLeastCost : Prop :=
  ∀ (row prior priorprior : List Byte) (x : Nat) (costs : List Nat), x < row.length → row.getD x 0 ≠ row.getD 0 0 →
    costs = (candidateRows row prior priorprior).map absSum →
    ∃ k, k < 8 ∧ (candidateRows row prior priorprior).map rowCost = costs
      ∧ encodeRecord true row prior priorprior = BitVec.ofNat 8 k :: (candidateRows row prior priorprior).getD k []
      ∧ (∀ j, j < 8 → costs.getD k 0 ≤ costs.getD j 0) ∧ ∀ j, j < k → costs.getD k 0 < costs.getD j 0

/-- Escape 7 is never selected (41_scanline_codec.md R107): its residual row is that of id 2, so its cost is too, and
the record of any row begins with 0 to 6 or 8 in the full set and with 4 in the restricted set; the decoder still
accepts id 7. -/
def Obligations.EscapeSevenNeverSelected : Prop :=
  ∀ (row prior priorprior : List Byte),
    deltaRow row prior = residualRow .up row prior priorprior
    ∧ rowCost (deltaRow row prior) = absSum (residualRow .up row prior priorprior)
    ∧ (∃ (id : Byte) (body : List Byte),
        encodeRecord true row prior priorprior = id :: body ∧ (id.toNat ≤ 6 ∨ id.toNat = 8))
    ∧ (∃ body, encodeRecord false row prior priorprior = 0x04 :: body)
    ∧ ∀ (body rest : List Byte), decodeRecord body.length (0x07 :: body ++ rest) = .instr (.f7 body)

/-- The escape-8 shortcut (41_scanline_codec.md R102): in the full set a constant row is `[8, v]` and computes no
candidate; in the restricted set it is a record of id 4 like any other. -/
def Obligations.ConstantRowIsEscapeEight : Prop :=
  ∀ (v : Byte) (w : Nat) (prior priorprior : List Byte), 1 ≤ w →
    encodeRecord true (List.replicate w v) prior priorprior = [0x08, v]
    ∧ rowCandidates true (List.replicate w v) prior priorprior = []
    ∧ encodeRecord false (List.replicate w v) prior priorprior
        = 0x04 :: residualRow .paeth (List.replicate w v) prior priorprior

/-- The size of a stream (41_scanline_codec.md R124): 2h to h(1 + w) bytes in the full set, h(1 + w) in the
restricted set, and at most MAX_DIM (1 + MAX_DIM) for dimensions a block accepts. -/
def Obligations.StreamSizeBounds : Prop :=
  ∀ (P : Plane) (h w : Nat), isPlane P h w → 1 ≤ h → 1 ≤ w →
    2 * h ≤ (encodePlane true w P).length ∧ (encodePlane true w P).length ≤ h * (1 + w)
    ∧ (encodePlane false w P).length = h * (1 + w)
    ∧ ∀ (p : Platform) (full : Bool), h ≤ maxDim p → w ≤ maxDim p →
        (encodePlane full w P).length ≤ maxDim p * (1 + maxDim p)

/-- The round trip of the scanline codec (41_scanline_codec.md R123): for every plane and either filter set the decoder
rebuilds every row exactly and consumes the whole stream. -/
def Obligations.ScanlineRoundTrip : Prop :=
  ∀ (P : Plane) (h w : Nat) (full : Bool), isPlane P h w → 1 ≤ h → 1 ≤ w →
    ∃ e, decodePlane (encodePlane full w P) h w = .done e ∧ e.rows = P
      ∧ e.cur = (encodePlane full w P).length

/-- The transpose (42_channel_pipeline.md R125): T[j][i] = P[i][j], a plane with the dimensions swapped, and
transposing twice gives the plane back. -/
def Obligations.TransposeSwapsAndInverts : Prop :=
  ∀ (P : Plane) (h w : Nat), isPlane P h w →
    isPlane (transpose w P) w h
    ∧ (∀ i j, i < h → j < w → ((transpose w P).getD j []).getD i 0 = (P.getD i []).getD j 0)
    ∧ transpose h (transpose w P) = P

/-- The scan-direction choice and its tie rule (42_channel_pipeline.md R126, R127): flag 1 exactly when the transposed
trial is strictly shorter, the kept component is the shorter one, a tie keeps the row-major result, and a plane equal
to its own transpose always gets flag 0. -/
def Obligations.SmallerTrialWinsTiesRowMajor : Prop :=
  ∀ (P : Plane) (h w : Nat) (full : Bool) (c0 c1 : List Byte),
    c0 = Config.codec.compress (encodePlane full w P) →
    c1 = Config.codec.compress (encodePlane full h (transpose w P)) →
    (c1.length < c0.length → encodeChannel full h w P = ⟨c1, true, c0.length, c1.length⟩)
    ∧ (c0.length ≤ c1.length → encodeChannel full h w P = ⟨c0, false, c0.length, c1.length⟩)
    ∧ (h = w → transpose w P = P → (encodeChannel full h w P).flag = false)

/-- The channel round trip (42_channel_pipeline.md R129): decoding the component ENCC made, with its flag, gives the
plane back and consumes the whole of the trial that won, for every compressor pair that meets the law. -/
def Obligations.ChannelRoundTrip : Prop :=
  ∀ (P : Plane) (h w : Nat) (full : Bool), isPlane P h w → 1 ≤ h → 1 ≤ w →
    ∃ e, decodeChannel (encodeChannel full h w P).comp h w (encodeChannel full h w P).flag = .done e
      ∧ decodedPlane (encodeChannel full h w P).flag h e = P
      ∧ e.cur = (if (encodeChannel full h w P).flag then encodePlane full h (transpose w P)
                 else encodePlane full w P).length

/-! ### The register window and the interrupt -/

/-- Reset (10_state.md R46): ID and VERSION read their constants, every other register reads 0, IDLE, irq 0, hazard
false. -/
def Obligations.ResetRegisterValues : Prop :=
  readReg .id State.reset = 0x00464950 ∧ readReg .version State.reset = 0x00000015
  ∧ (∀ r, r ≠ .id → r ≠ .version → readReg r State.reset = 0)
  ∧ State.reset.phase = .idle ∧ irq State.reset = false ∧ State.reset.hazard = false

/-- A host write at an offset other than those of CMD, CTRL and STATUS (43_commands.md R145, 10_state.md R17): a
writable register then reads the value written, its reserved bits 0; a read-only register and a reserved offset
ignore it; and every other register, the flags, the latch, the hidden state and the memory stay. That the latch and
the hidden state stay while IDLE is the model's choice (log 26). -/
def Obligations.RegisterWriteStores : Prop :=
  ∀ (s : State) (es : List Event) (off : Nat) (v : Word), off < 0x60 → off % 4 = 0 →
    off ≠ 0x08 → off ≠ 0x0C → off ≠ 0x10 → s.script = .hostWrite (s.platform.regBase + off) 4 v :: es →
    ∃ t, step s = .next t
      ∧ (∀ r, readReg r t
          = if regOffset r = off then (storedValue r v).getD (readReg r s) else readReg r s)
      ∧ t.status = s.status ∧ t.phase = s.phase ∧ t.lat = s.lat ∧ t.eng = s.eng ∧ t.mem = s.mem
      ∧ t.hazard = s.hazard ∧ t.platform = s.platform ∧ t.guards = s.guards ∧ t.readData = s.readData
      ∧ t.script = es

/-- A host write to STATUS (10_state.md R23): DONE, ERR and CMD_OVR are cleared where the written bit is 1; BUSY,
ERRCODE and every register stay. That the latch stays while IDLE is the model's choice (log 26). -/
def Obligations.StatusWriteClearsOnes : Prop :=
  ∀ (s : State) (es : List Event) (v : Word),
    s.script = .hostWrite (s.platform.regBase + 0x10) 4 v :: es →
    ∃ t, step s = .next t
      ∧ t.status.done = (s.status.done && !v.getLsbD 1) ∧ t.status.err = (s.status.err && !v.getLsbD 2)
      ∧ t.status.cmdOvr = (s.status.cmdOvr && !v.getLsbD 3) ∧ t.status.errcode = s.status.errcode
      ∧ statusWord t = statusWord s &&& ~~~(v &&& 0x0000000E)
      ∧ t.regs = s.regs ∧ t.phase = s.phase ∧ t.lat = s.lat ∧ t.mem = s.mem ∧ t.hazard = s.hazard
      ∧ t.guards = s.guards

/-- A host read returns the register's value, 0 at a reserved offset, and changes nothing of the block
(43_commands.md R144). The host's own fields may change: the value returned, and the guards when the read shows BUSY 0;
both fields are the model's own (log 12, 23). That the latch and the hidden state stay while IDLE is the model's
choice (log 26). -/
def Obligations.RegisterReadHasNoSideEffect : Prop :=
  ∀ (s : State) (es : List Event) (off : Nat), off < 0x60 → off % 4 = 0 →
    s.script = .hostRead (s.platform.regBase + off) 4 :: es →
    ∃ t, step s = .next t
      ∧ (∀ r, regOffset r = off → t.readData = readReg r s)
      ∧ ((∀ r, regOffset r ≠ off) → t.readData = 0)
      ∧ t.regs = s.regs ∧ t.status = s.status ∧ t.phase = s.phase ∧ t.lat = s.lat ∧ t.eng = s.eng
      ∧ t.mem = s.mem ∧ t.hazard = s.hazard ∧ t.platform = s.platform

/-- The fields of STATUS as it reads (10_state.md R23): BUSY, DONE, ERR, CMD_OVR in bits 0 to 3, ERRCODE in bits 15:8,
every other bit 0; and the values ERRCODE takes, 0x00 for no error and 0x01 ERR_OP to 0x0C ERR_BUS (60_exceptions.md
R148). -/
def Obligations.StatusWordLayout : Prop :=
  (∀ (s : State),
    (statusWord s).getLsbD 0 = decide (s.phase = .busy) ∧ (statusWord s).getLsbD 1 = s.status.done
    ∧ (statusWord s).getLsbD 2 = s.status.err ∧ (statusWord s).getLsbD 3 = s.status.cmdOvr
    ∧ (statusWord s).extractLsb' 4 4 = 0 ∧ (statusWord s).extractLsb' 8 8 = errByte s.status.errcode
    ∧ (statusWord s).extractLsb' 16 16 = 0)
  ∧ errByte .none = 0x00 ∧ errByte .op = 0x01 ∧ errByte .rsvd = 0x02 ∧ errByte .dim = 0x03 ∧ errByte .arg = 0x04
  ∧ errByte .range = 0x05 ∧ errByte .overlap = 0x06 ∧ errByte .src = 0x07 ∧ errByte .dstCap = 0x08
  ∧ errByte .badFilter = 0x09 ∧ errByte .underrun = 0x0A ∧ errByte .decomp = 0x0B ∧ errByte .bus = 0x0C

/-- The interrupt output is level-sensitive (10_state.md R45, 60_exceptions.md R157): it is 1 exactly while an enabled
one of DONE and ERR is 1, as the host reads STATUS and IRQ_EN; at reset it is 0. -/
def Obligations.IrqIsEnabledDoneOrErr : Prop :=
  (∀ (s : State), irq s
    = (((readReg .status s).getLsbD 1 && (readReg .irqEn s).getLsbD 0)
      || ((readReg .status s).getLsbD 2 && (readReg .irqEn s).getLsbD 1)))
  ∧ irq State.reset = false

/-- An access at an offset of the window that is not 32 bits wide or not aligned is refused, a read and a write alike
(20_memory.md R49). -/
def Obligations.UndefinedRegisterAccessRefused : Prop :=
  ∀ (s : State) (es : List Event) (off size : Nat) (v : Word), off < 0x60 → 0 < size → (size ≠ 4 ∨ off % 4 ≠ 0) →
    (s.script = .hostWrite (s.platform.regBase + off) size v :: es → step s = .refused .registerAccess)
    ∧ (s.script = .hostRead (s.platform.regBase + off) size :: es → step s = .refused .registerAccess)
end

