-- ==== Sys2Proof/Laws/Decode.lean ====
section
/-! SUPPORT. The fields of a command word read back, and a command word is made of its fields. -/

namespace Sys2Proof

/-- Each bit of a command word is a bit of one of its fields. -/
theorem getLsbD_cmdWord (r : BitVec 20) (o : BitVec 4) (c : BitVec 2) (f t : Bool) (k : BitVec 4) (i : Nat) :
    (cmdWord r o c f t k).getLsbD i
      = if i < 4 then o.getLsbD i
        else if i - 4 < 2 then c.getLsbD (i - 4)
        else if i - 4 - 2 < 1 then (BitVec.ofBool f).getLsbD (i - 4 - 2)
        else if i - 4 - 2 - 1 < 1 then (BitVec.ofBool t).getLsbD (i - 4 - 2 - 1)
        else if i - 4 - 2 - 1 - 1 < 4 then k.getLsbD (i - 4 - 2 - 1 - 1)
        else r.getLsbD (i - 4 - 2 - 1 - 1 - 4) := by
  show @BitVec.getLsbD (20 + 4 + 1 + 1 + 2 + 4)
    (r ++ k ++ BitVec.ofBool t ++ BitVec.ofBool f ++ c ++ o) i = _
  simp only [BitVec.getLsbD_append]

@[simp] theorem cmdOp_cmdWord (r : BitVec 20) (o : BitVec 4) (c : BitVec 2) (f t : Bool) (k : BitVec 4) :
    cmdOp (cmdWord r o c f t k) = o := by
  apply BitVec.eq_of_getLsbD_eq
  intro i hi
  simp [cmdOp, getLsbD_cmdWord, hi]

@[simp] theorem cmdChan_cmdWord (r : BitVec 20) (o : BitVec 4) (c : BitVec 2) (f t : Bool) (k : BitVec 4) :
    cmdChan (cmdWord r o c f t k) = c := by
  apply BitVec.eq_of_getLsbD_eq
  intro i hi
  simp [cmdChan, getLsbD_cmdWord, hi]

@[simp] theorem cmdFset_cmdWord (r : BitVec 20) (o : BitVec 4) (c : BitVec 2) (f t : Bool) (k : BitVec 4) :
    cmdFset (cmdWord r o c f t k) = f := by
  rw [cmdFset, wordBit, getLsbD_cmdWord]; simp

@[simp] theorem cmdOrient_cmdWord (r : BitVec 20) (o : BitVec 4) (c : BitVec 2) (f t : Bool) (k : BitVec 4) :
    cmdOrient (cmdWord r o c f t k) = t := by
  rw [cmdOrient, wordBit, getLsbD_cmdWord]; simp

@[simp] theorem cmdK_cmdWord (r : BitVec 20) (o : BitVec 4) (c : BitVec 2) (f t : Bool) (k : BitVec 4) :
    cmdK (cmdWord r o c f t k) = k := by
  apply BitVec.eq_of_getLsbD_eq
  intro i hi
  have h1 : ¬ 8 + i < 4 := by omega
  have h2 : ¬ 8 + i - 4 < 2 := by omega
  have h3 : ¬ 8 + i - 4 - 2 < 1 := by omega
  have h4 : ¬ 8 + i - 4 - 2 - 1 < 1 := by omega
  have h5 : 8 + i - 4 - 2 - 1 - 1 = i := by omega
  simp [cmdK, getLsbD_cmdWord, h1, h2, h3, h4, h5, hi]

@[simp] theorem cmdRsv_cmdWord (r : BitVec 20) (o : BitVec 4) (c : BitVec 2) (f t : Bool) (k : BitVec 4) :
    cmdRsv (cmdWord r o c f t k) = r := by
  apply BitVec.eq_of_getLsbD_eq
  intro i hi
  have h1 : ¬ 12 + i < 4 := by omega
  have h2 : ¬ 12 + i - 4 < 2 := by omega
  have h3 : ¬ 12 + i - 4 - 2 < 1 := by omega
  have h4 : ¬ 12 + i - 4 - 2 - 1 < 1 := by omega
  have h5 : ¬ 12 + i - 4 - 2 - 1 - 1 < 4 := by omega
  have h6 : 12 + i - 4 - 2 - 1 - 1 - 4 = i := by omega
  simp [cmdRsv, getLsbD_cmdWord, h1, h2, h3, h4, h5, h6, hi]

/-- A word is the command word of its fields. -/
theorem cmdWord_fields (v : Word) :
    cmdWord (cmdRsv v) (cmdOp v) (cmdChan v) (cmdFset v) (cmdOrient v) (cmdK v) = v := by
  apply BitVec.eq_of_getLsbD_eq
  intro i hi
  rw [getLsbD_cmdWord]
  simp only [cmdRsv, cmdOp, cmdChan, cmdFset, cmdOrient, cmdK, wordBit,
    BitVec.getLsbD_extractLsb', BitVec.getLsbD_ofBool]
  by_cases h1 : i < 4
  · simp [h1]
  by_cases h2 : i - 4 < 2
  · have : 4 + (i - 4) = i := by omega
    simp [h1, h2, this]
  by_cases h3 : i - 4 - 2 < 1
  · have : i = 6 := by omega
    subst this; simp
  by_cases h4 : i - 4 - 2 - 1 < 1
  · have : i = 7 := by omega
    subst this; simp
  by_cases h5 : i - 4 - 2 - 1 - 1 < 4
  · have : 8 + (i - 4 - 2 - 1 - 1) = i := by omega
    simp [h1, h2, h3, h4, h5, this]
  · have h6 : i - 4 - 2 - 1 - 1 - 4 < 20 := by omega
    have : 12 + (i - 4 - 2 - 1 - 1 - 4) = i := by omega
    simp [h1, h2, h3, h4, h5, h6, this]

/-- What a CMD word decodes to, said once: the reserved bits are 0 and OP picks the command. -/
theorem decodeCmd_eq_instr {v : Word} {i : Instr} :
    decodeCmd v = .instr i ↔
      cmdRsv v = 0 ∧ commandOf (cmdOp v) (cmdChan v) (cmdFset v) (cmdOrient v) (cmdK v) = .instr i := by
  unfold decodeCmd
  split <;> simp_all

/-- Decoding a command word with no reserved bit set is decoding its OP. -/
theorem decodeCmd_cmdWord (o : BitVec 4) (c : BitVec 2) (f t : Bool) (k : BitVec 4) :
    decodeCmd (cmdWord 0 o c f t k) = commandOf o c f t k := by
  simp [decodeCmd]

/-- What a record of id 0 to 8 is; anything else is illegal. -/
theorem recordOf_instr {id : Byte} (h : id.toNat ≤ 8) (body : List Byte) :
    ∃ i, recordOf id body = .instr i ∧ i.isRecord = true := by
  have hc : id.toNat = 0 ∨ id.toNat = 1 ∨ id.toNat = 2 ∨ id.toNat = 3 ∨ id.toNat = 4 ∨ id.toNat = 5
      ∨ id.toNat = 6 ∨ id.toNat = 7 ∨ id.toNat = 8 := by omega
  rcases hc with h | h | h | h | h | h | h | h | h <;>
    (simp only [recordOf, h]; exact ⟨_, rfl, rfl⟩)

theorem recordBodyLength_of_le {w : Nat} {id : Byte} (h : id.toNat ≤ 7) : recordBodyLength w id = some w := by
  simp [recordBodyLength, h]

theorem recordBodyLength_eight {w : Nat} {id : Byte} (h : id.toNat = 8) : recordBodyLength w id = some 1 := by
  simp [recordBodyLength, h]

theorem recordBodyLength_of_ge {w : Nat} {id : Byte} (h : 9 ≤ id.toNat) : recordBodyLength w id = none := by
  have h1 : ¬ id.toNat ≤ 7 := by omega
  have h2 : ¬ id.toNat = 8 := by omega
  simp [recordBodyLength, h1, h2]

/-- The encoding of SRST decodes to SRST with the same ignored bits (30_encoding.md R73). -/
theorem decodeCtrl_srst (ignored : BitVec 31) : decodeCtrl (ignored ++ 1#1) = .instr (.srst ignored) := by
  have hb : ∀ n, @BitVec.getLsbD (31 + 1) (ignored ++ 1#1) n
      = if n < 1 then (1#1).getLsbD n else ignored.getLsbD (n - 1) := fun n => by
    rw [BitVec.getLsbD_append]
  have h0 : wordBit (ignored ++ 1#1) 0 = true := (hb 0).trans (by simp)
  have h1 : BitVec.extractLsb' 1 31 (ignored ++ 1#1) = ignored := by
    apply BitVec.eq_of_getLsbD_eq
    intro i hi
    rw [BitVec.getLsbD_extractLsb']
    have h2 : ¬ 1 + i < 1 := by omega
    exact (congrArg (decide (i < 31) && ·) (hb (1 + i))).trans (by simp [hi])
  unfold decodeCtrl
  rw [if_pos h0, h1]

/-- A command's encoding is the command word of its OP and fields. -/
theorem encode_of_commandOf {o : BitVec 4} {c : BitVec 2} {f t : Bool} {k : BitVec 4} {i : Instr}
    (h : commandOf o c f t k = .instr i) : encode i = .cmd (cmdWord 0 o c f t k) ∧ i.isRecord = false := by
  have ho : o.toNat = 0 ∨ o.toNat = 1 ∨ o.toNat = 2 ∨ o.toNat = 3 ∨ o.toNat = 4 ∨ o.toNat = 5 ∨ o.toNat = 6
      ∨ 7 ≤ o.toNat := by omega
  have e : ∀ n : Nat, o.toNat = n → o = BitVec.ofNat 4 n := fun n hn => by
    apply BitVec.eq_of_toNat_eq; simp [← hn]
  rcases ho with h0 | h0 | h0 | h0 | h0 | h0 | h0 | h0
  iterate 7
    (have e' := e _ h0; subst e'; simp [commandOf] at h; subst h; exact ⟨rfl, rfl⟩)
  · exfalso
    unfold commandOf at h
    split at h <;> first | omega | simp at h

/-- An OP below 7 is a command; OP 7 to 15 is none (30_encoding.md R71, R72). -/
theorem commandOf_lt {o : BitVec 4} (h : o.toNat < 7) (c : BitVec 2) (f t : Bool) (k : BitVec 4) :
    ∃ i, commandOf o c f t k = .instr i := by
  have ho : o.toNat = 0 ∨ o.toNat = 1 ∨ o.toNat = 2 ∨ o.toNat = 3 ∨ o.toNat = 4 ∨ o.toNat = 5 ∨ o.toNat = 6 := by
    omega
  rcases ho with h0 | h0 | h0 | h0 | h0 | h0 | h0 <;> exact ⟨_, by simp only [commandOf, h0]; rfl⟩

theorem commandOf_ge {o : BitVec 4} (h : 7 ≤ o.toNat) (c : BitVec 2) (f t : Bool) (k : BitVec 4) :
    commandOf o c f t k = .reservedOp := by
  unfold commandOf
  split <;> first | omega | rfl

/-- Bit 0 of a word by masking. -/
theorem and_one (v : Word) : (v &&& 1 = 1 ↔ wordBit v 0 = true) ∧ (v &&& 1 = 0 ↔ wordBit v 0 = false) := by
  have h : v &&& 1 = BitVec.setWidth 32 (BitVec.ofBool (v.getLsbD 0)) := by
    apply BitVec.eq_of_getLsbD_eq
    intro i hi
    cases i <;> simp [BitVec.getLsbD_one]
  rw [h]; unfold wordBit
  cases v.getLsbD 0 <;> simp

/-- The reserved bits are the bits from 12 on (30_encoding.md R69). -/
theorem cmdRsv_eq_zero (v : Word) : cmdRsv v = 0 ↔ v >>> 12 = 0 := by
  constructor
  · intro h
    apply BitVec.eq_of_getLsbD_eq
    intro i hi
    have := congrArg (fun x => BitVec.getLsbD x i) h
    simp only [cmdRsv, BitVec.getLsbD_extractLsb'] at this
    simp only [BitVec.getLsbD_ushiftRight]
    by_cases h20 : i < 20
    · simpa [h20] using this
    · have : 32 ≤ 12 + i := by omega
      simp [BitVec.getLsbD_of_ge v (12 + i) this]
  · intro h
    apply BitVec.eq_of_getLsbD_eq
    intro i hi
    have := congrArg (fun x => BitVec.getLsbD x i) h
    simp only [BitVec.getLsbD_ushiftRight] at this
    simpa [cmdRsv, BitVec.getLsbD_extractLsb', hi] using this

/-- OP is the low four bits (30_encoding.md R69). -/
theorem cmdOp_toNat (v : Word) : (cmdOp v).toNat = (v &&& 0xF).toNat := by
  have : (v &&& 0xF).toNat = v.toNat % 16 := by
    rw [BitVec.toNat_and]; exact Nat.and_two_pow_sub_one_eq_mod v.toNat 4
  rw [this]
  simp [cmdOp, BitVec.extractLsb'_toNat]

end Sys2Proof
end

