-- ==== Sys2Proof/Laws/Memory.lean ====
section
/-! SUPPORT. What the memory operations do, said once: the canonical form is kept, a read after a write, and equal reads are equal memories. -/

namespace Sys2Proof.Machine

theorem Memory.wfFrom_mono {lo lo' : Nat} (h : lo' ≤ lo) :
    ∀ {m : Memory}, Memory.wfFrom lo m = true → Memory.wfFrom lo' m = true
  | [], _ => rfl
  | (b, v) :: t, hm => by
    simp only [Memory.wfFrom, Bool.and_eq_true, decide_eq_true_eq] at hm ⊢
    exact ⟨⟨⟨h.trans hm.1.1.1, hm.1.1.2⟩, hm.1.2⟩, hm.2⟩

/-- Below its first address a canonical memory reads as unlisted. -/
theorem Memory.read_of_lt {a : Nat} :
    ∀ {lo : Nat} {m : Memory}, Memory.wfFrom lo m = true → a < lo → Memory.read m a = unlistedByte
  | _, [], _, _ => rfl
  | lo, (b, v) :: t, hm, h => by
    simp only [Memory.wfFrom, Bool.and_eq_true, decide_eq_true_eq] at hm
    have hab : a ≠ b := by omega
    simp only [Memory.read, hab, if_false]
    exact Memory.read_of_lt hm.2 (by omega)

theorem Memory.wfFrom_put {a : Nat} {v : Byte} (ha : a < Config.dataSpace) :
    ∀ {lo : Nat} {m : Memory}, Memory.wfFrom lo m = true → lo ≤ a → Memory.wfFrom lo (Memory.put m a v) = true
  | lo, [], _, h => by
    by_cases hv : v = unlistedByte <;> simp [Memory.put, Memory.wfFrom, hv, h, ha]
  | lo, (b, u) :: t, hm, h => by
    have hm' := hm
    simp only [Memory.wfFrom, Bool.and_eq_true, decide_eq_true_eq] at hm'
    obtain ⟨⟨⟨h1, h2⟩, h3⟩, h4⟩ := hm'
    unfold Memory.put
    split
    · rename_i hab
      split
      · exact hm
      · rename_i hv
        simp only [Memory.wfFrom, Bool.and_eq_true, decide_eq_true_eq]
        exact ⟨⟨⟨h, ha⟩, by simpa using hv⟩, ⟨⟨⟨hab, h2⟩, h3⟩, h4⟩⟩
    · split
      · rename_i _ hab
        subst hab
        split
        · exact Memory.wfFrom_mono (by omega) h4
        · rename_i hv
          simp only [Memory.wfFrom, Bool.and_eq_true, decide_eq_true_eq]
          exact ⟨⟨⟨h, ha⟩, by simpa using hv⟩, h4⟩
      · rename_i hab hne
        simp only [Memory.wfFrom, Bool.and_eq_true, decide_eq_true_eq]
        exact ⟨⟨⟨h1, h2⟩, h3⟩, Memory.wfFrom_put ha h4 (by omega)⟩

/-- A read after a put: the byte put at its address, the old byte elsewhere. -/
theorem Memory.read_put {a : Nat} {v : Byte} (c : Nat) :
    ∀ {lo : Nat} {m : Memory}, Memory.wfFrom lo m = true → lo ≤ a →
      Memory.read (Memory.put m a v) c = if c = a then v else Memory.read m c
  | lo, [], _, _ => by
    by_cases hv : v = unlistedByte
    · by_cases hc : c = a <;> simp [Memory.put, Memory.read, hv, hc]
    · simp [Memory.put, Memory.read, hv]
  | lo, (b, u) :: t, hm, h => by
    have hm' := hm
    simp only [Memory.wfFrom, Bool.and_eq_true, decide_eq_true_eq] at hm'
    obtain ⟨⟨⟨h1, h2⟩, h3⟩, h4⟩ := hm'
    unfold Memory.put
    split
    · rename_i hab
      split
      · rename_i hv
        by_cases hc : c = a
        · subst hc
          have hcb : c ≠ b := by omega
          simp only [Memory.read, hcb, if_false, if_true]
          rw [hv]; exact Memory.read_of_lt h4 (by omega)
        · simp [hc]
      · simp [Memory.read]
    · split
      · rename_i _ hab
        subst hab
        split
        · rename_i hv
          by_cases hc : c = a
          · subst hc
            simp only [if_true]
            rw [hv]; exact Memory.read_of_lt h4 (by omega)
          · simp [Memory.read, hc]
        · by_cases hc : c = a <;> simp [Memory.read, hc]
      · rename_i hab hne
        simp only [Memory.read]
        rw [Memory.read_put c h4 (by omega)]
        by_cases hc : c = b
        · subst hc
          have : c ≠ a := fun h => hne h.symm
          simp [this]
        · simp [hc]

theorem Memory.wf_write {m : Memory} (h : Memory.wf m = true) (a : Nat) (v : Byte) :
    Memory.wf (Memory.write m a v) = true := by
  unfold Memory.write
  split
  · rename_i ha; exact Memory.wfFrom_put ha h (Nat.zero_le a)
  · exact h

/-- A read after a write of one byte of the data space. -/
theorem Memory.read_write {m : Memory} (h : Memory.wf m = true) {a : Nat} (ha : a < Config.dataSpace)
    (v : Byte) (c : Nat) : Memory.read (Memory.write m a v) c = if c = a then v else Memory.read m c := by
  simp only [Memory.write, ha, if_true]
  exact Memory.read_put c h (Nat.zero_le a)

/-- A write leaves every other address alone. -/
theorem Memory.read_write_ne {m : Memory} (h : Memory.wf m = true) {a c : Nat} (hc : c ≠ a) (v : Byte) :
    Memory.read (Memory.write m a v) c = Memory.read m c := by
  by_cases ha : a < Config.dataSpace
  · rw [Memory.read_write h ha, if_neg hc]
  · simp [Memory.write, ha]

theorem Memory.wf_writeBytes : ∀ {bs : List Byte} {m : Memory} {a : Nat}, Memory.wf m = true →
    Memory.wf (Memory.writeBytes m a bs) = true
  | [], _, _, h => h
  | b :: bs, m, a, h => by
    rw [Memory.writeBytes]
    exact Memory.wf_writeBytes (Memory.wf_write h a b)

/-- A read after a write of a byte string that lies in the data space. -/
theorem Memory.read_writeBytes (c : Nat) :
    ∀ {bs : List Byte} {m : Memory} {a : Nat}, Memory.wf m = true → a + bs.length ≤ Config.dataSpace →
      Memory.read (Memory.writeBytes m a bs) c
        = if a ≤ c ∧ c < a + bs.length then bs.getD (c - a) 0 else Memory.read m c
  | [], m, a, _, _ => by
    have : ¬ (a ≤ c ∧ c < a) := by omega
    simp [Memory.writeBytes, this]
  | b :: bs, m, a, h, hl => by
    have hl' : a + 1 + bs.length ≤ Config.dataSpace := by simp at hl; omega
    rw [Memory.writeBytes, Memory.read_writeBytes c (Memory.wf_write h a b) hl',
      Memory.read_write h (by omega)]
    by_cases hc : c = a
    · subst hc
      have h1 : ¬ (c + 1 ≤ c ∧ c < c + 1 + bs.length) := by omega
      have h2 : c ≤ c ∧ c < c + (b :: bs).length := by simp
      simp
    · by_cases h1 : a + 1 ≤ c ∧ c < a + 1 + bs.length
      · have h2 : a ≤ c ∧ c < a + (b :: bs).length := by simp; omega
        rw [if_pos h1, if_pos h2]
        have h3 : c - a = (c - (a + 1)) + 1 := by omega
        rw [h3]; simp
      · have h2 : ¬ (a ≤ c ∧ c < a + (b :: bs).length) := by simp; omega
        rw [if_neg h1, if_neg h2, if_neg hc]

/-- A write of a byte string leaves every address outside it alone. -/
theorem Memory.read_writeBytes_outside (c : Nat) :
    ∀ {bs : List Byte} {m : Memory} {a : Nat}, Memory.wf m = true → ¬ (a ≤ c ∧ c < a + bs.length) →
      Memory.read (Memory.writeBytes m a bs) c = Memory.read m c
  | [], _, _, _, _ => rfl
  | b :: bs, m, a, h, hc => by
    simp only [List.length_cons] at hc
    rw [Memory.writeBytes, Memory.read_writeBytes_outside c (Memory.wf_write h a b) (by omega),
      Memory.read_write_ne h (by omega)]

theorem Memory.wf_scramble {m : Memory} (h : Memory.wf m = true) (ctr base : Nat) :
    ∀ n, Memory.wf (Memory.scramble m ctr base n) = true
  | 0 => h
  | n + 1 => by rw [Memory.scramble]; exact Memory.wf_write (Memory.wf_scramble h ctr base n) _ _

/-- Outside the region nothing changes when a region becomes unspecified. -/
theorem Memory.read_scramble_outside {m : Memory} (h : Memory.wf m = true) (ctr base c : Nat) :
    ∀ n, ¬ (base ≤ c ∧ c < base + n) → Memory.read (Memory.scramble m ctr base n) c = Memory.read m c
  | 0, _ => rfl
  | n + 1, hc => by
    rw [Memory.scramble, Memory.read_write_ne (Memory.wf_scramble h ctr base n) (by omega),
      Memory.read_scramble_outside h ctr base c n (by omega)]

/-- Equal memories are equal data: two canonical memories that read alike are the same list. -/
theorem Memory.eq_of_read_eq : ∀ {lo lo' : Nat} {m m' : Memory}, Memory.wfFrom lo m = true →
    Memory.wfFrom lo' m' = true → (∀ a, Memory.read m a = Memory.read m' a) → m = m'
  | _, _, [], [], _, _, _ => rfl
  | _, _, [], (b, v) :: t, _, h', hr => by
    simp only [Memory.wfFrom, Bool.and_eq_true, bne_iff_ne, ne_eq] at h'
    have := hr b
    simp only [Memory.read, if_true] at this
    exact absurd this.symm h'.1.2
  | _, _, (b, v) :: t, [], h, _, hr => by
    simp only [Memory.wfFrom, Bool.and_eq_true, bne_iff_ne, ne_eq] at h
    have := hr b
    simp only [Memory.read, if_true] at this
    exact absurd this h.1.2
  | lo, lo', (b, v) :: t, (b', v') :: t', h, h', hr => by
    simp only [Memory.wfFrom, Bool.and_eq_true, decide_eq_true_eq, bne_iff_ne, ne_eq] at h h'
    have hbb : b = b' := by
      by_contra hne
      rcases Nat.lt_or_gt_of_ne hne with hlt | hgt
      · have := hr b
        simp only [Memory.read, if_true, hne, if_false] at this
        rw [Memory.read_of_lt h'.2 (by omega)] at this
        exact h.1.2 this
      · have := hr b'
        have hne' : b' ≠ b := fun e => hne e.symm
        simp only [Memory.read, if_true, hne', if_false] at this
        rw [Memory.read_of_lt h.2 (by omega)] at this
        exact h'.1.2 this.symm
    subst hbb
    have hv : v = v' := by simpa [Memory.read] using hr b
    subst hv
    have ht : t = t' := by
      refine Memory.eq_of_read_eq h.2 h'.2 fun a => ?_
      by_cases hab : a = b
      · subst hab
        rw [Memory.read_of_lt h.2 (by omega), Memory.read_of_lt h'.2 (by omega)]
      · simpa [Memory.read, hab] using hr a
    rw [ht]

@[simp] theorem Memory.length_readBytes (m : Memory) (a n : Nat) : (Memory.readBytes m a n).length = n := by
  simp [Memory.readBytes]

@[simp] theorem addrRange_length (base n : Nat) : (addrRange base n).length = n := by simp [addrRange]

theorem mem_addrRange {base n a : Nat} : a ∈ addrRange base n ↔ base ≤ a ∧ a < base + n := by
  simp only [addrRange, List.mem_map, List.mem_range]
  constructor
  · rintro ⟨k, hk, rfl⟩; omega
  · rintro ⟨h1, h2⟩; exact ⟨a - base, by omega, by omega⟩

/-- No access of the list is refused exactly when every one is admitted. -/
theorem refusedOf_eq_nil {p : Platform} {k : Access} {as : List Nat} :
    refusedOf p k as = [] ↔ ∀ a ∈ as, admits p k a = true := by
  simp [refusedOf, List.filter_eq_nil_iff]

/-- An admitted address lies in the data space. -/
theorem lt_of_admits {p : Platform} {k : Access} {a : Nat} (h : admits p k a = true) : a < Config.dataSpace := by
  simp only [admits, Bool.and_eq_true, decide_eq_true_eq] at h; exact h.1

/-- The refused address an ERR_BUS reports is one of those refused. -/
theorem pickRefused_mem {c : Nat} {as : List Nat} (h : as ≠ []) : pickRefused c as ∈ as := by
  have hl : 0 < as.length := List.length_pos_of_ne_nil h
  have hi : Config.freeIndex c % as.length < as.length := Nat.mod_lt _ hl
  simp [pickRefused, List.getD_eq_getElem?_getD, hi]

end Sys2Proof.Machine
end

