-- ==== Sys2Proof/Laws/Codec.lean ====
section
/-! SUPPORT. What the codec's shared functions do, said once: byte arithmetic, residual and decoded rows sample by sample, the selection loop, the encoder's and decoder's loops, and the record fetch on a byte string. -/

namespace Sys2Proof.Machine

/-! ### Byte arithmetic -/

theorem s8_eq_toInt (b : Byte) : s8 b = b.toInt := by
  have hb : b.toNat < 256 := b.isLt
  rw [BitVec.toInt_eq_toNat_cond]
  unfold s8
  split <;> split <;> omega

@[simp] theorem mod256_toNat (b : Byte) : mod256 (b.toNat : Int) = b := by
  simp [mod256]

@[simp] theorem mod256_s8 (b : Byte) : mod256 (s8 b) = b := by
  rw [s8_eq_toInt, mod256, BitVec.ofInt_toInt]

theorem mod256_add (a b : Int) : mod256 (a + b) = mod256 a + mod256 b := by
  simp [mod256, BitVec.ofInt_add]

theorem mod256_neg (a : Int) : mod256 (-a) = - mod256 a := by
  simp [mod256, BitVec.ofInt_neg]

theorem mod256_sub (a b : Int) : mod256 (a - b) = mod256 a - mod256 b := by
  rw [Int.sub_eq_add_neg, mod256_add, mod256_neg, BitVec.sub_eq_add_neg]

theorem mod256_natCast (n : Nat) : mod256 (n : Int) = BitVec.ofNat 8 n := by
  simp [mod256]

/-- The signed and the unsigned reading of a residual reconstruct alike (30_encoding.md R81). -/
theorem reconstruct_eq (k : Pred) (n : Neighbours) (r : Byte) :
    reconstruct k n r = mod256 (predict k n) + r := by
  rw [reconstruct, mod256_add, mod256_s8]

theorem residual_eq (k : Pred) (n : Neighbours) (b : Byte) : residual k n b = b - mod256 (predict k n) := by
  rw [residual, mod256_sub, mod256_toNat]

/-! ### Rows -/

theorem getD_map_range {α : Type} (f : Nat → α) (d : α) {n x : Nat} (h : x < n) :
    ((List.range n).map f).getD x d = f x := by
  simp [List.getD_eq_getElem?_getD, h]

@[simp] theorem sampleBack_zero (row : List Byte) (x : Nat) : sampleBack row x 0 = row.getD x 0 := by
  simp [sampleBack]

@[simp] theorem length_zeroRow (w : Nat) : (zeroRow w).length = w := by simp [zeroRow]

@[simp] theorem getD_zeroRow (w x : Nat) : (zeroRow w).getD x 0 = 0 := by
  by_cases h : x < w <;> simp [zeroRow, List.getD_eq_getElem?_getD, h]

@[simp] theorem length_residualRow (k : Pred) (row p q : List Byte) :
    (residualRow k row p q).length = row.length := by simp [residualRow]

theorem getD_residualRow (k : Pred) (row p q : List Byte) {x : Nat} (h : x < row.length) :
    (residualRow k row p q).getD x 0 = residual k (neighboursAt row p q x) (row.getD x 0) :=
  getD_map_range _ _ h

@[simp] theorem length_deltaRow (row p : List Byte) : (deltaRow row p).length = row.length := by simp [deltaRow]

@[simp] theorem length_candidateRows (row p q : List Byte) : (candidateRows row p q).length = 8 := by
  simp [candidateRows, allPreds]

/-- Every candidate row is as long as the row. -/
theorem length_of_mem_candidateRows {row p q r : List Byte} (h : r ∈ candidateRows row p q) :
    r.length = row.length := by
  simp only [candidateRows, List.mem_append, List.mem_map, List.mem_singleton] at h
  rcases h with ⟨k, _, rfl⟩ | rfl <;> simp

/-- The neighbours of the next pixel depend only on the pixels before it. -/
theorem neighboursAt_append (acc rest p q : List Byte) :
    neighboursAt (acc ++ rest) p q acc.length = neighboursAt acc p q acc.length := by
  have : sampleBack (acc ++ rest) acc.length 1 = sampleBack acc acc.length 1 := by
    unfold sampleBack
    split
    · rename_i h
      have h1 : acc.length - 1 < acc.length := by omega
      simp [List.getD_eq_getElem?_getD, List.getElem?_append_left h1]
    · rfl
  simp [neighboursAt, this]

/-- What `decodePixels` builds: the row so far, then one sample per residual byte, each reconstructed from the
finished row's neighbours. -/
theorem decodePixels_spec (k : Pred) (p q : List Byte) :
    ∀ (body acc : List Byte), ∃ rest, decodePixels k p q acc body = acc ++ rest ∧ rest.length = body.length
      ∧ ∀ x, x < body.length → rest.getD x 0
          = reconstruct k (neighboursAt (acc ++ rest) p q (acc.length + x)) (body.getD x 0)
  | [], acc => ⟨[], by simp [decodePixels], rfl, by simp⟩
  | b :: bs, acc => by
    obtain ⟨rest, h1, h2, h3⟩ :=
      decodePixels_spec k p q bs (acc ++ [reconstruct k (neighboursAt acc p q acc.length) b])
    refine ⟨reconstruct k (neighboursAt acc p q acc.length) b :: rest, ?_, by simp [h2], ?_⟩
    · rw [decodePixels, h1]; simp
    · intro x hx
      cases x with
      | zero =>
        rw [Nat.add_zero, neighboursAt_append]
        simp
      | succ x =>
        have := h3 x (by simpa using hx)
        simp only [List.length_append, List.length_singleton, List.append_assoc, List.singleton_append] at this
        have e : acc.length + (x + 1) = acc.length + 1 + x := by omega
        simpa [e] using this

theorem length_decodePixels (k : Pred) (p q body : List Byte) :
    (decodePixels k p q [] body).length = body.length := by
  obtain ⟨rest, h1, h2, _⟩ := decodePixels_spec k p q body []
  rw [h1]; simpa using h2

/-- Each decoded sample, from the finished row. -/
theorem getD_decodePixels (k : Pred) (p q body : List Byte) {x : Nat} (h : x < body.length) :
    (decodePixels k p q [] body).getD x 0
      = reconstruct k (neighboursAt (decodePixels k p q [] body) p q x) (body.getD x 0) := by
  obtain ⟨rest, h1, _, h3⟩ := decodePixels_spec k p q body []
  rw [h1]; simpa using h3 x h

@[simp] theorem length_decodeDelta (p body : List Byte) : (decodeDelta p body).length = body.length := by
  simp [decodeDelta]

theorem getD_decodeDelta (p body : List Byte) {x : Nat} (h : x < body.length) :
    (decodeDelta p body).getD x 0 = clipByte ((p.getD x 0).toNat + s8 (body.getD x 0)) := by
  rw [decodeDelta, getD_map_range _ _ h, sampleBack_zero]

/-! ### Selection -/

/-- The selection loop: the result is the best so far, if nothing later is strictly less, or the first strict
minimum of the rest. -/
theorem selectFrom_spec : ∀ (cs : List Nat) (best bc k : Nat),
    (selectFrom best bc k cs = best ∧ ∀ j, j < cs.length → bc ≤ cs.getD j 0)
    ∨ ∃ j, j < cs.length ∧ selectFrom best bc k cs = k + j ∧ cs.getD j 0 < bc
        ∧ (∀ i, i < cs.length → cs.getD j 0 ≤ cs.getD i 0) ∧ ∀ i, i < j → cs.getD j 0 < cs.getD i 0
  | [], best, bc, k => .inl ⟨rfl, by simp⟩
  | c :: cs, best, bc, k => by
    unfold selectFrom
    split
    · rename_i hc
      rcases selectFrom_spec cs k c (k + 1) with ⟨h1, h2⟩ | ⟨j, h1, h2, h3, h4, h5⟩
      · refine .inr ⟨0, by simp, by simpa using h1, by simpa using hc, fun i hi => ?_, by simp⟩
        cases i with
        | zero => simp
        | succ i => simpa using h2 i (by simpa using hi)
      · refine .inr ⟨j + 1, by simpa using h1, by rw [h2]; omega, ?_, fun i hi => ?_, fun i hi => ?_⟩
        · simp only [List.getD_cons_succ]; omega
        · cases i with
          | zero => simp only [List.getD_cons_succ, List.getD_cons_zero]; omega
          | succ i => simpa using h4 i (by simpa using hi)
        · cases i with
          | zero => simpa using h3
          | succ i => simpa using h5 i (by omega)
    · rename_i hc
      rcases selectFrom_spec cs best bc (k + 1) with ⟨h1, h2⟩ | ⟨j, h1, h2, h3, h4, h5⟩
      · refine .inl ⟨h1, fun j hj => ?_⟩
        cases j with
        | zero => simp only [List.getD_cons_zero]; omega
        | succ j => simpa using h2 j (by simpa using hj)
      · refine .inr ⟨j + 1, by simpa using h1, by rw [h2]; omega, by simpa using h3, fun i hi => ?_,
          fun i hi => ?_⟩
        · cases i with
          | zero => simp only [List.getD_cons_succ, List.getD_cons_zero]; omega
          | succ i => simpa using h4 i (by simpa using hi)
        · cases i with
          | zero => simp only [List.getD_cons_succ, List.getD_cons_zero]; omega
          | succ i => simpa using h5 i (by omega)

theorem selectFilter_lt {cs : List Nat} (h : cs ≠ []) : selectFilter cs < cs.length := by
  cases cs with
  | nil => exact absurd rfl h
  | cons c cs =>
    rcases selectFrom_spec cs 0 c 1 with ⟨h1, _⟩ | ⟨j, h1, h2, _⟩
    · simp [selectFilter, h1]
    · simp only [selectFilter, h2, List.length_cons]; omega

/-! ### The encoder's loop -/

/-- The three shapes of a record the encoder emits. -/
theorem encodeRecord_cases (full : Bool) (row p q : List Byte) :
    (full = true ∧ isConstant row = true ∧ encodeRecord full row p q = [0x08, row.headD 0])
    ∨ (full = true ∧ isConstant row = false
        ∧ encodeRecord full row p q
          = BitVec.ofNat 8 (selectFilter ((candidateRows row p q).map rowCost))
            :: (candidateRows row p q).getD (selectFilter ((candidateRows row p q).map rowCost)) [])
    ∨ (full = false ∧ encodeRecord full row p q = 0x04 :: residualRow .paeth row p q) := by
  cases full <;> cases h : isConstant row <;> simp [encodeRecord, h]

@[simp] theorem encodeRow_prior (full : Bool) (e : Engine) (row : List Byte) :
    (encodeRow full e row).prior = row := rfl

@[simp] theorem encodeRow_priorprior (full : Bool) (e : Engine) (row : List Byte) :
    (encodeRow full e row).priorprior = e.prior := rfl

@[simp] theorem encodeRow_stream (full : Bool) (e : Engine) (row : List Byte) :
    (encodeRow full e row).stream = e.stream ++ encodeRecord full row e.prior e.priorprior := rfl

/-- The stream a plane gives from given history rows: the records one after another (41_scanline_codec.md R106). -/
def planeRecords (full : Bool) : List Byte → List Byte → Plane → List Byte
  | _, _, [] => []
  | p, q, row :: P => encodeRecord full row p q ++ planeRecords full row p P

theorem stream_foldl (full : Bool) : ∀ (P : Plane) (e : Engine),
    (P.foldl (encodeRow full) e).stream = e.stream ++ planeRecords full e.prior e.priorprior P
  | [], e => by simp [planeRecords]
  | row :: P, e => by
    rw [List.foldl_cons, stream_foldl full P]
    simp [planeRecords]

/-- The encoder's stream is the concatenation of the rows' records, the history all zero at the start. -/
theorem encodePlane_eq (full : Bool) (w : Nat) (P : Plane) :
    encodePlane full w P = planeRecords full (zeroRow w) (zeroRow w) P := by
  simp [encodePlane, encodeRows, stream_foldl, engineStart]

/-! ### The decoder's loop -/

@[simp] theorem advanceRow_width (row : List Byte) (n : Nat) (e : Engine) : (advanceRow row n e).width = e.width := rfl
@[simp] theorem advanceRow_rows (row : List Byte) (n : Nat) (e : Engine) :
    (advanceRow row n e).rows = e.rows ++ [row] := rfl
@[simp] theorem advanceRow_cur (row : List Byte) (n : Nat) (e : Engine) : (advanceRow row n e).cur = e.cur + n := rfl
@[simp] theorem advanceRow_prior (row : List Byte) (n : Nat) (e : Engine) : (advanceRow row n e).prior = row := rfl
@[simp] theorem advanceRow_priorprior (row : List Byte) (n : Nat) (e : Engine) :
    (advanceRow row n e).priorprior = e.prior := rfl

/-- Running a record: one row joins the plane and becomes the prior row, the width stays; for a record that
fits the engine's width the row has that width. -/
theorem recordStep_spec {i : Instr} (h : i.isRecord = true) (e : Engine) :
    ∃ row, (recordStep i e).rows = e.rows ++ [row] ∧ (recordStep i e).width = e.width
      ∧ (recordStep i e).prior = row ∧ (recordStep i e).priorprior = e.prior
      ∧ (recordStep i e).cur = e.cur + (recordBytes i).length
      ∧ (i.fits e.width = true → row.length = e.width) := by
  cases i with
  | nop _ _ _ _ => simp [Instr.isRecord] at h
  | encp _ _ _ _ => simp [Instr.isRecord] at h
  | decp _ _ _ _ => simp [Instr.isRecord] at h
  | encc _ _ _ _ => simp [Instr.isRecord] at h
  | decc _ _ _ _ => simp [Instr.isRecord] at h
  | pred _ _ _ _ => simp [Instr.isRecord] at h
  | cost _ _ _ _ => simp [Instr.isRecord] at h
  | srst _ => simp [Instr.isRecord] at h
  | f0 body =>
    exact ⟨_, rfl, rfl, rfl, rfl, by simp [recordStep, pixelRecord, recordBytes, encode]; omega,
      fun hf => by rw [length_decodePixels]; simpa [Instr.fits] using hf⟩
  | f1 body =>
    exact ⟨_, rfl, rfl, rfl, rfl, by simp [recordStep, pixelRecord, recordBytes, encode]; omega,
      fun hf => by rw [length_decodePixels]; simpa [Instr.fits] using hf⟩
  | f2 body =>
    exact ⟨_, rfl, rfl, rfl, rfl, by simp [recordStep, pixelRecord, recordBytes, encode]; omega,
      fun hf => by rw [length_decodePixels]; simpa [Instr.fits] using hf⟩
  | f3 body =>
    exact ⟨_, rfl, rfl, rfl, rfl, by simp [recordStep, pixelRecord, recordBytes, encode]; omega,
      fun hf => by rw [length_decodePixels]; simpa [Instr.fits] using hf⟩
  | f4 body =>
    exact ⟨_, rfl, rfl, rfl, rfl, by simp [recordStep, pixelRecord, recordBytes, encode]; omega,
      fun hf => by rw [length_decodePixels]; simpa [Instr.fits] using hf⟩
  | f5 body =>
    exact ⟨_, rfl, rfl, rfl, rfl, by simp [recordStep, pixelRecord, recordBytes, encode]; omega,
      fun hf => by rw [length_decodePixels]; simpa [Instr.fits] using hf⟩
  | f6 body =>
    exact ⟨_, rfl, rfl, rfl, rfl, by simp [recordStep, pixelRecord, recordBytes, encode]; omega,
      fun hf => by rw [length_decodePixels]; simpa [Instr.fits] using hf⟩
  | f7 body =>
    exact ⟨_, rfl, rfl, rfl, rfl, by simp [recordStep, deltaRecord, recordBytes, encode]; omega,
      fun hf => by rw [length_decodeDelta]; simpa [Instr.fits] using hf⟩
  | f8 value =>
    exact ⟨_, rfl, rfl, rfl, rfl, by simp [recordStep, uniformRecord, recordBytes, encode], fun _ => by simp⟩

/-- What the record of an id and its body is, and that it fits the width the body was cut to. -/
theorem recordOf_spec {w n : Nat} {id : Byte} {body : List Byte} {i : Instr}
    (hn : recordBodyLength w id = some n) (hb : body.length = n) (h : recordOf id body = .instr i) :
    i.isRecord = true ∧ i.fits w = true ∧ recordBytes i = id :: body := by
  have hid : id.toNat ≤ 8 := by
    by_contra hc
    rw [recordBodyLength_of_ge (by omega)] at hn
    exact absurd hn (by simp)
  have hc : id.toNat = 8 ∨ id.toNat ≤ 7 := by omega
  rcases hc with h8 | h7
  · rw [recordBodyLength_eight h8] at hn
    obtain rfl : n = 1 := by simpa using hn.symm
    obtain ⟨v, rfl⟩ := List.length_eq_one_iff.mp hb
    have e8 : id = 0x08#8 := BitVec.eq_of_toNat_eq (by simpa using h8)
    subst e8
    obtain rfl : i = .f8 v := by
      have := h
      simp [recordOf] at this
      exact this.symm
    exact ⟨rfl, rfl, rfl⟩
  · rw [recordBodyLength_of_le h7] at hn
    obtain rfl : n = w := by simpa using hn.symm
    have hk : id = 0x00#8 ∨ id = 0x01#8 ∨ id = 0x02#8 ∨ id = 0x03#8 ∨ id = 0x04#8 ∨ id = 0x05#8 ∨ id = 0x06#8
        ∨ id = 0x07#8 := by
      have hx : id.toNat = 0 ∨ id.toNat = 1 ∨ id.toNat = 2 ∨ id.toNat = 3 ∨ id.toNat = 4 ∨ id.toNat = 5
          ∨ id.toNat = 6 ∨ id.toNat = 7 := by omega
      rcases hx with hx | hx | hx | hx | hx | hx | hx | hx
      · exact .inl (BitVec.eq_of_toNat_eq (by simpa using hx))
      · exact .inr (.inl (BitVec.eq_of_toNat_eq (by simpa using hx)))
      · exact .inr (.inr (.inl (BitVec.eq_of_toNat_eq (by simpa using hx))))
      · exact .inr (.inr (.inr (.inl (BitVec.eq_of_toNat_eq (by simpa using hx)))))
      · exact .inr (.inr (.inr (.inr (.inl (BitVec.eq_of_toNat_eq (by simpa using hx))))))
      · exact .inr (.inr (.inr (.inr (.inr (.inl (BitVec.eq_of_toNat_eq (by simpa using hx)))))))
      · exact .inr (.inr (.inr (.inr (.inr (.inr (.inl (BitVec.eq_of_toNat_eq (by simpa using hx))))))))
      · exact .inr (.inr (.inr (.inr (.inr (.inr (.inr (BitVec.eq_of_toNat_eq (by simpa using hx))))))))
    rcases hk with rfl | rfl | rfl | rfl | rfl | rfl | rfl | rfl <;>
      (simp [recordOf] at h; subst h; simp [Instr.isRecord, Instr.fits, hb, recordBytes, encode])

/-- Fetching: a record is within the stream, fits the width and is made of the bytes at the cursor; the other
ends are those of 41_scanline_codec.md R119, R120 and 60_exceptions.md R152. -/
theorem fetchRecord_record {len w cur : Nat} {read : Nat → Option Byte} {i : Instr}
    (h : fetchRecord len read w cur = .record i) :
    i.isRecord = true ∧ i.fits w = true ∧ cur + (recordBytes i).length ≤ len := by
  unfold fetchRecord at h
  split at h
  · exact absurd h (by simp)
  · split at h
    · exact absurd h (by simp)
    · rename_i hlen _ id _
      split at h
      · exact absurd h (by simp)
      · rename_i n hn
        split at h
        · exact absurd h (by simp)
        · rename_i hl
          split at h
          · split at h
            · rename_i j hj
              obtain rfl : j = i := by simpa using h
              obtain ⟨h1, h2, h3⟩ := recordOf_spec hn (by simp) hj
              exact ⟨h1, h2, by rw [h3]; simp; omega⟩
            · exact absurd h (by simp)
          · exact absurd h (by simp)

/-- The refused offsets of a fetch are not none. -/
theorem fetchRecord_refused_ne {len w cur : Nat} {read : Nat → Option Byte} {os : List Nat}
    (h : fetchRecord len read w cur = .refusedAt os) : os ≠ [] := by
  unfold fetchRecord at h
  split at h
  · exact absurd h (by simp)
  · split at h
    · simp at h; subst h; simp
    · split at h
      · exact absurd h (by simp)
      · split at h
        · exact absurd h (by simp)
        · split at h
          · split at h <;> exact absurd h (by simp)
          · simp at h; subst h; simp

/-- A decode that ends has as many rows more as asked for, each of the engine's width. -/
theorem decodeRows_done {len w : Nat} {read : Nat → Option Byte} :
    ∀ {h : Nat} {e e' : Engine}, decodeRows len read w h e = .done e' → e.width = w →
      e'.width = w ∧ ∃ R : Plane, e'.rows = e.rows ++ R ∧ R.length = h ∧ ∀ row ∈ R, row.length = w
  | 0, e, e', hd, hw => by
    simp only [decodeRows, Decoding.done.injEq] at hd
    subst hd
    exact ⟨hw, [], by simp, rfl, by simp⟩
  | h + 1, e, e', hd, hw => by
    unfold decodeRows at hd
    split at hd
    · rename_i i hf
      obtain ⟨h1, h2, _⟩ := fetchRecord_record hf
      obtain ⟨row, r1, r2, _, _, _, r6⟩ := recordStep_spec h1 e
      have hw' : (recordStep i e).width = w := by rw [r2, hw]
      obtain ⟨w', R, hR, hlen, hall⟩ := decodeRows_done hd hw'
      refine ⟨w', row :: R, by rw [hR, r1]; simp, by simp [hlen], ?_⟩
      intro r hr
      rcases List.mem_cons.mp hr with rfl | hr
      · rw [r6 (by rw [hw]; exact h2), hw]
      · exact hall r hr
    · exact absurd hd (by simp)
    · exact absurd hd (by simp)
    · exact absurd hd (by simp)

theorem decodeRows_refused_ne {len w : Nat} {read : Nat → Option Byte} :
    ∀ {h : Nat} {e : Engine} {os : List Nat}, decodeRows len read w h e = .refusedAt os → os ≠ []
  | 0, _, _, hd => by simp [decodeRows] at hd
  | h + 1, e, os, hd => by
    unfold decodeRows at hd
    split at hd
    · exact decodeRows_refused_ne hd
    · exact absurd hd (by simp)
    · exact absurd hd (by simp)
    · rename_i os' hf
      simp at hd; subst hd
      exact fetchRecord_refused_ne hf

theorem readList_getD_map {bytes : List Byte} {start n : Nat} (h : start + n ≤ bytes.length) :
    (addrRange start n).map (fun o => (readList bytes o).getD 0) = (bytes.drop start).take n := by
  apply List.ext_getElem
  · simp; omega
  · intro k h1 h2
    simp only [List.length_map, addrRange_length] at h1
    have hk : start + k < bytes.length := by omega
    simp [addrRange, readList, hk]

theorem unreadable_readList {bytes : List Byte} {start n : Nat} (h : start + n ≤ bytes.length) :
    unreadable (readList bytes) start n = [] := by
  simp only [unreadable, List.filter_eq_nil_iff, mem_addrRange]
  intro a ha
  have : a < bytes.length := by omega
  simp [readList, this]

/-- On a byte string the fetch at the cursor is the decoding of the bytes from there. -/
theorem fetchRecord_readList (bytes : List Byte) (w cur : Nat) :
    fetchRecord bytes.length (readList bytes) w cur
      = match decodeRecord w (bytes.drop cur) with
        | .instr i => .record i
        | .underrun => .underrun
        | _ => .badFilter := by
  by_cases hc : bytes.length ≤ cur
  · simp [fetchRecord, hc, List.drop_eq_nil_of_le hc, decodeRecord]
  · have hc' : cur < bytes.length := by omega
    have hd : bytes.drop cur = bytes[cur] :: bytes.drop (cur + 1) := List.drop_eq_getElem_cons hc'
    have hr : readList bytes cur = some bytes[cur] := by simp [readList, hc']
    rw [hd]
    simp only [fetchRecord, hc, if_false, hr, decodeRecord]
    cases hn : recordBodyLength w bytes[cur] with
    | none => rfl
    | some n =>
      simp only [List.length_drop]
      by_cases hl : bytes.length < cur + 1 + n
      · have hl' : bytes.length - (cur + 1) < n := by omega
        simp [hl, hl']
      · have hl' : ¬ bytes.length - (cur + 1) < n := by omega
        rw [if_neg hl, if_neg hl', unreadable_readList (by omega), readList_getD_map (by omega)]
        have hid : bytes[cur].toNat ≤ 8 := by
          by_contra hcc
          rw [recordBodyLength_of_ge (by omega)] at hn
          exact absurd hn (by simp)
        obtain ⟨i, hi, _⟩ := recordOf_instr hid ((bytes.drop (cur + 1)).take n)
        simp [hi]

end Sys2Proof.Machine
end

