-- ==== Sys2Proof/Laws/State.lean ====
section
/-! SUPPORT. One lemma per field per update of State, true by rfl, so that no later proof unfolds a record update. -/

namespace Sys2Proof.Machine

@[simp] theorem endCommand_regs (s : State) : (endCommand s).regs = s.regs := rfl
@[simp] theorem endCommand_status (s : State) : (endCommand s).status = s.status := rfl
@[simp] theorem endCommand_phase (s : State) : (endCommand s).phase = .idle := rfl
@[simp] theorem endCommand_lat (s : State) : (endCommand s).lat = s.lat := rfl
@[simp] theorem endCommand_eng (s : State) : (endCommand s).eng = freeEngine s.freeCtr := rfl
@[simp] theorem endCommand_hazard (s : State) : (endCommand s).hazard = s.hazard := rfl
@[simp] theorem endCommand_mem (s : State) : (endCommand s).mem = s.mem := rfl
@[simp] theorem endCommand_platform (s : State) : (endCommand s).platform = s.platform := rfl
@[simp] theorem endCommand_script (s : State) : (endCommand s).script = s.script := rfl
@[simp] theorem endCommand_readData (s : State) : (endCommand s).readData = s.readData := rfl
@[simp] theorem endCommand_guards (s : State) : (endCommand s).guards = s.guards := rfl
@[simp] theorem endCommand_freeCtr (s : State) : (endCommand s).freeCtr = s.freeCtr + 1 := rfl

@[simp] theorem complete_regs (s : State) : (complete s).regs = s.regs := rfl
@[simp] theorem complete_status (s : State) : (complete s).status = { s.status with done := true } := rfl
@[simp] theorem complete_phase (s : State) : (complete s).phase = .idle := rfl
@[simp] theorem complete_lat (s : State) : (complete s).lat = s.lat := rfl
@[simp] theorem complete_eng (s : State) : (complete s).eng = freeEngine s.freeCtr := rfl
@[simp] theorem complete_hazard (s : State) : (complete s).hazard = s.hazard := rfl
@[simp] theorem complete_mem (s : State) : (complete s).mem = s.mem := rfl
@[simp] theorem complete_platform (s : State) : (complete s).platform = s.platform := rfl
@[simp] theorem complete_script (s : State) : (complete s).script = s.script := rfl
@[simp] theorem complete_readData (s : State) : (complete s).readData = s.readData := rfl
@[simp] theorem complete_guards (s : State) : (complete s).guards = s.guards := rfl
@[simp] theorem complete_freeCtr (s : State) : (complete s).freeCtr = s.freeCtr + 1 := rfl

@[simp] theorem raiseError_regs (c : ErrCode) (i : Word) (s : State) : (raiseError c i s).regs = { s.regs with errInfo := i } := rfl
@[simp] theorem raiseError_status (c : ErrCode) (i : Word) (s : State) : (raiseError c i s).status = { s.status with err := true, errcode := c } := rfl
@[simp] theorem raiseError_phase (c : ErrCode) (i : Word) (s : State) : (raiseError c i s).phase = .idle := rfl
@[simp] theorem raiseError_lat (c : ErrCode) (i : Word) (s : State) : (raiseError c i s).lat = s.lat := rfl
@[simp] theorem raiseError_eng (c : ErrCode) (i : Word) (s : State) : (raiseError c i s).eng = freeEngine s.freeCtr := rfl
@[simp] theorem raiseError_hazard (c : ErrCode) (i : Word) (s : State) : (raiseError c i s).hazard = s.hazard := rfl
@[simp] theorem raiseError_mem (c : ErrCode) (i : Word) (s : State) : (raiseError c i s).mem = s.mem := rfl
@[simp] theorem raiseError_platform (c : ErrCode) (i : Word) (s : State) : (raiseError c i s).platform = s.platform := rfl
@[simp] theorem raiseError_script (c : ErrCode) (i : Word) (s : State) : (raiseError c i s).script = s.script := rfl
@[simp] theorem raiseError_readData (c : ErrCode) (i : Word) (s : State) : (raiseError c i s).readData = s.readData := rfl
@[simp] theorem raiseError_guards (c : ErrCode) (i : Word) (s : State) : (raiseError c i s).guards = s.guards := rfl
@[simp] theorem raiseError_freeCtr (c : ErrCode) (i : Word) (s : State) : (raiseError c i s).freeCtr = s.freeCtr + 1 := rfl

@[simp] theorem scrambleRegion_regs (r : Region) (s : State) : (scrambleRegion r s).regs = s.regs := rfl
@[simp] theorem scrambleRegion_status (r : Region) (s : State) : (scrambleRegion r s).status = s.status := rfl
@[simp] theorem scrambleRegion_phase (r : Region) (s : State) : (scrambleRegion r s).phase = s.phase := rfl
@[simp] theorem scrambleRegion_lat (r : Region) (s : State) : (scrambleRegion r s).lat = s.lat := rfl
@[simp] theorem scrambleRegion_eng (r : Region) (s : State) : (scrambleRegion r s).eng = s.eng := rfl
@[simp] theorem scrambleRegion_hazard (r : Region) (s : State) : (scrambleRegion r s).hazard = s.hazard := rfl
@[simp] theorem scrambleRegion_mem (r : Region) (s : State) : (scrambleRegion r s).mem = Memory.scramble s.mem s.freeCtr r.base r.len := rfl
@[simp] theorem scrambleRegion_platform (r : Region) (s : State) : (scrambleRegion r s).platform = s.platform := rfl
@[simp] theorem scrambleRegion_script (r : Region) (s : State) : (scrambleRegion r s).script = s.script := rfl
@[simp] theorem scrambleRegion_readData (r : Region) (s : State) : (scrambleRegion r s).readData = s.readData := rfl
@[simp] theorem scrambleRegion_guards (r : Region) (s : State) : (scrambleRegion r s).guards = s.guards := rfl
@[simp] theorem scrambleRegion_freeCtr (r : Region) (s : State) : (scrambleRegion r s).freeCtr = s.freeCtr + 1 := rfl

@[simp] theorem raiseDynamic_regs (c : ErrCode) (i : Word) (s : State) : (raiseDynamic c i s).regs = { s.regs with errInfo := i } := rfl
@[simp] theorem raiseDynamic_status (c : ErrCode) (i : Word) (s : State) : (raiseDynamic c i s).status = { s.status with err := true, errcode := c } := rfl
@[simp] theorem raiseDynamic_phase (c : ErrCode) (i : Word) (s : State) : (raiseDynamic c i s).phase = .idle := rfl
@[simp] theorem raiseDynamic_lat (c : ErrCode) (i : Word) (s : State) : (raiseDynamic c i s).lat = s.lat := rfl
@[simp] theorem raiseDynamic_eng (c : ErrCode) (i : Word) (s : State) : (raiseDynamic c i s).eng = freeEngine (s.freeCtr + 1) := rfl
@[simp] theorem raiseDynamic_hazard (c : ErrCode) (i : Word) (s : State) : (raiseDynamic c i s).hazard = s.hazard := rfl
@[simp] theorem raiseDynamic_mem (c : ErrCode) (i : Word) (s : State) : (raiseDynamic c i s).mem = Memory.scramble s.mem s.freeCtr s.lat.dstAddr.toNat s.lat.dstCap.toNat := rfl
@[simp] theorem raiseDynamic_platform (c : ErrCode) (i : Word) (s : State) : (raiseDynamic c i s).platform = s.platform := rfl
@[simp] theorem raiseDynamic_script (c : ErrCode) (i : Word) (s : State) : (raiseDynamic c i s).script = s.script := rfl
@[simp] theorem raiseDynamic_readData (c : ErrCode) (i : Word) (s : State) : (raiseDynamic c i s).readData = s.readData := rfl
@[simp] theorem raiseDynamic_guards (c : ErrCode) (i : Word) (s : State) : (raiseDynamic c i s).guards = s.guards := rfl
@[simp] theorem raiseDynamic_freeCtr (c : ErrCode) (i : Word) (s : State) : (raiseDynamic c i s).freeCtr = s.freeCtr + 2 := rfl

@[simp] theorem acknowledge_regs (v : Word) (s : State) : (acknowledge v s).regs = s.regs := rfl
@[simp] theorem acknowledge_status (v : Word) (s : State) : (acknowledge v s).status = statusClear v s.status := rfl
@[simp] theorem acknowledge_phase (v : Word) (s : State) : (acknowledge v s).phase = s.phase := rfl
@[simp] theorem acknowledge_lat (v : Word) (s : State) : (acknowledge v s).lat = s.lat := rfl
@[simp] theorem acknowledge_eng (v : Word) (s : State) : (acknowledge v s).eng = s.eng := rfl
@[simp] theorem acknowledge_hazard (v : Word) (s : State) : (acknowledge v s).hazard = s.hazard := rfl
@[simp] theorem acknowledge_mem (v : Word) (s : State) : (acknowledge v s).mem = s.mem := rfl
@[simp] theorem acknowledge_platform (v : Word) (s : State) : (acknowledge v s).platform = s.platform := rfl
@[simp] theorem acknowledge_script (v : Word) (s : State) : (acknowledge v s).script = s.script := rfl
@[simp] theorem acknowledge_readData (v : Word) (s : State) : (acknowledge v s).readData = s.readData := rfl
@[simp] theorem acknowledge_guards (v : Word) (s : State) : (acknowledge v s).guards = s.guards := rfl
@[simp] theorem acknowledge_freeCtr (v : Word) (s : State) : (acknowledge v s).freeCtr = s.freeCtr := rfl

@[simp] theorem overrun_regs (s : State) : (overrun s).regs = s.regs := rfl
@[simp] theorem overrun_status (s : State) : (overrun s).status = { s.status with cmdOvr := true } := rfl
@[simp] theorem overrun_phase (s : State) : (overrun s).phase = s.phase := rfl
@[simp] theorem overrun_lat (s : State) : (overrun s).lat = s.lat := rfl
@[simp] theorem overrun_eng (s : State) : (overrun s).eng = s.eng := rfl
@[simp] theorem overrun_hazard (s : State) : (overrun s).hazard = s.hazard := rfl
@[simp] theorem overrun_mem (s : State) : (overrun s).mem = s.mem := rfl
@[simp] theorem overrun_platform (s : State) : (overrun s).platform = s.platform := rfl
@[simp] theorem overrun_script (s : State) : (overrun s).script = s.script := rfl
@[simp] theorem overrun_readData (s : State) : (overrun s).readData = s.readData := rfl
@[simp] theorem overrun_guards (s : State) : (overrun s).guards = s.guards := rfl
@[simp] theorem overrun_freeCtr (s : State) : (overrun s).freeCtr = s.freeCtr := rfl

@[simp] theorem clearResults_regs (v : Word) (s : State) : (clearResults v s).regs = { s.regs with cmd := v, errInfo := 0, outLen := 0, inUsed := 0, lenRm := 0, lenTr := 0, result := 0 } := rfl
@[simp] theorem clearResults_status (v : Word) (s : State) : (clearResults v s).status = { s.status with done := false, err := false, errcode := .none } := rfl
@[simp] theorem clearResults_phase (v : Word) (s : State) : (clearResults v s).phase = s.phase := rfl
@[simp] theorem clearResults_lat (v : Word) (s : State) : (clearResults v s).lat = s.lat := rfl
@[simp] theorem clearResults_eng (v : Word) (s : State) : (clearResults v s).eng = s.eng := rfl
@[simp] theorem clearResults_hazard (v : Word) (s : State) : (clearResults v s).hazard = s.hazard := rfl
@[simp] theorem clearResults_mem (v : Word) (s : State) : (clearResults v s).mem = s.mem := rfl
@[simp] theorem clearResults_platform (v : Word) (s : State) : (clearResults v s).platform = s.platform := rfl
@[simp] theorem clearResults_script (v : Word) (s : State) : (clearResults v s).script = s.script := rfl
@[simp] theorem clearResults_readData (v : Word) (s : State) : (clearResults v s).readData = s.readData := rfl
@[simp] theorem clearResults_guards (v : Word) (s : State) : (clearResults v s).guards = s.guards := rfl
@[simp] theorem clearResults_freeCtr (v : Word) (s : State) : (clearResults v s).freeCtr = s.freeCtr := rfl

@[simp] theorem markHazard_regs (c : Bool) (s : State) : (markHazard c s).regs = s.regs := rfl
@[simp] theorem markHazard_status (c : Bool) (s : State) : (markHazard c s).status = s.status := rfl
@[simp] theorem markHazard_phase (c : Bool) (s : State) : (markHazard c s).phase = s.phase := rfl
@[simp] theorem markHazard_lat (c : Bool) (s : State) : (markHazard c s).lat = s.lat := rfl
@[simp] theorem markHazard_eng (c : Bool) (s : State) : (markHazard c s).eng = s.eng := rfl
@[simp] theorem markHazard_hazard (c : Bool) (s : State) : (markHazard c s).hazard = (s.hazard || c) := rfl
@[simp] theorem markHazard_mem (c : Bool) (s : State) : (markHazard c s).mem = s.mem := rfl
@[simp] theorem markHazard_platform (c : Bool) (s : State) : (markHazard c s).platform = s.platform := rfl
@[simp] theorem markHazard_script (c : Bool) (s : State) : (markHazard c s).script = s.script := rfl
@[simp] theorem markHazard_readData (c : Bool) (s : State) : (markHazard c s).readData = s.readData := rfl
@[simp] theorem markHazard_guards (c : Bool) (s : State) : (markHazard c s).guards = s.guards := rfl
@[simp] theorem markHazard_freeCtr (c : Bool) (s : State) : (markHazard c s).freeCtr = s.freeCtr := rfl

@[simp] theorem hostStore_regs (a : Word) (b : Byte) (s : State) : (hostStore a b s).regs = s.regs := rfl
@[simp] theorem hostStore_status (a : Word) (b : Byte) (s : State) : (hostStore a b s).status = s.status := rfl
@[simp] theorem hostStore_phase (a : Word) (b : Byte) (s : State) : (hostStore a b s).phase = s.phase := rfl
@[simp] theorem hostStore_lat (a : Word) (b : Byte) (s : State) : (hostStore a b s).lat = s.lat := rfl
@[simp] theorem hostStore_eng (a : Word) (b : Byte) (s : State) : (hostStore a b s).eng = s.eng := rfl
@[simp] theorem hostStore_hazard (a : Word) (b : Byte) (s : State) : (hostStore a b s).hazard = (s.hazard || guarded s a.toNat) := rfl
@[simp] theorem hostStore_mem (a : Word) (b : Byte) (s : State) : (hostStore a b s).mem = Memory.write s.mem a.toNat b := rfl
@[simp] theorem hostStore_platform (a : Word) (b : Byte) (s : State) : (hostStore a b s).platform = s.platform := rfl
@[simp] theorem hostStore_script (a : Word) (b : Byte) (s : State) : (hostStore a b s).script = s.script := rfl
@[simp] theorem hostStore_readData (a : Word) (b : Byte) (s : State) : (hostStore a b s).readData = s.readData := rfl
@[simp] theorem hostStore_guards (a : Word) (b : Byte) (s : State) : (hostStore a b s).guards = s.guards := rfl
@[simp] theorem hostStore_freeCtr (a : Word) (b : Byte) (s : State) : (hostStore a b s).freeCtr = s.freeCtr := rfl

@[simp] theorem softReset_regs (s : State) : (softReset s).regs = Regs.reset := rfl
@[simp] theorem softReset_status (s : State) : (softReset s).status = Status.reset := rfl
@[simp] theorem softReset_phase (s : State) : (softReset s).phase = .idle := rfl
@[simp] theorem softReset_lat (s : State) : (softReset s).lat = freeLatch (abandon s).freeCtr := rfl
@[simp] theorem softReset_eng (s : State) : (softReset s).eng = freeEngine (abandon s).freeCtr := rfl
@[simp] theorem softReset_mem (s : State) : (softReset s).mem = (abandon s).mem := rfl
@[simp] theorem softReset_freeCtr (s : State) : (softReset s).freeCtr = (abandon s).freeCtr + 1 := rfl

@[simp] theorem abandon_regs (s : State) : (abandon s).regs = s.regs := by
  unfold abandon; split <;> [rfl; (split <;> rfl)]
@[simp] theorem abandon_status (s : State) : (abandon s).status = s.status := by
  unfold abandon; split <;> [rfl; (split <;> rfl)]
@[simp] theorem abandon_phase (s : State) : (abandon s).phase = s.phase := by
  unfold abandon; split <;> [rfl; (split <;> rfl)]
@[simp] theorem abandon_lat (s : State) : (abandon s).lat = s.lat := by
  unfold abandon; split <;> [rfl; (split <;> rfl)]
@[simp] theorem abandon_eng (s : State) : (abandon s).eng = s.eng := by
  unfold abandon; split <;> [rfl; (split <;> rfl)]
@[simp] theorem abandon_hazard (s : State) : (abandon s).hazard = s.hazard := by
  unfold abandon; split <;> [rfl; (split <;> rfl)]
@[simp] theorem abandon_platform (s : State) : (abandon s).platform = s.platform := by
  unfold abandon; split <;> [rfl; (split <;> rfl)]
@[simp] theorem abandon_script (s : State) : (abandon s).script = s.script := by
  unfold abandon; split <;> [rfl; (split <;> rfl)]
@[simp] theorem abandon_readData (s : State) : (abandon s).readData = s.readData := by
  unfold abandon; split <;> [rfl; (split <;> rfl)]
@[simp] theorem abandon_guards (s : State) : (abandon s).guards = s.guards := by
  unfold abandon; split <;> [rfl; (split <;> rfl)]

@[simp] theorem softReset_hazard (s : State) : (softReset s).hazard = s.hazard := abandon_hazard s
@[simp] theorem softReset_platform (s : State) : (softReset s).platform = s.platform := abandon_platform s
@[simp] theorem softReset_script (s : State) : (softReset s).script = s.script := abandon_script s
@[simp] theorem softReset_guards (s : State) : (softReset s).guards = s.guards := abandon_guards s
@[simp] theorem softReset_readData (s : State) : (softReset s).readData = s.readData := abandon_readData s

@[simp] theorem observeEnd_regs (s : State) : (observeEnd s).regs = s.regs := by
  unfold observeEnd; split <;> rfl
@[simp] theorem observeEnd_status (s : State) : (observeEnd s).status = s.status := by
  unfold observeEnd; split <;> rfl
@[simp] theorem observeEnd_phase (s : State) : (observeEnd s).phase = s.phase := by
  unfold observeEnd; split <;> rfl
@[simp] theorem observeEnd_lat (s : State) : (observeEnd s).lat = s.lat := by
  unfold observeEnd; split <;> rfl
@[simp] theorem observeEnd_eng (s : State) : (observeEnd s).eng = s.eng := by
  unfold observeEnd; split <;> rfl
@[simp] theorem observeEnd_hazard (s : State) : (observeEnd s).hazard = s.hazard := by
  unfold observeEnd; split <;> rfl
@[simp] theorem observeEnd_mem (s : State) : (observeEnd s).mem = s.mem := by
  unfold observeEnd; split <;> rfl
@[simp] theorem observeEnd_platform (s : State) : (observeEnd s).platform = s.platform := by
  unfold observeEnd; split <;> rfl
@[simp] theorem observeEnd_script (s : State) : (observeEnd s).script = s.script := by
  unfold observeEnd; split <;> rfl
@[simp] theorem observeEnd_readData (s : State) : (observeEnd s).readData = s.readData := by
  unfold observeEnd; split <;> rfl
@[simp] theorem observeEnd_freeCtr (s : State) : (observeEnd s).freeCtr = s.freeCtr := by
  unfold observeEnd; split <;> rfl
@[simp] theorem hostLoad_regs (a : Word) (s : State) : (hostLoad a s).regs = s.regs := by
  unfold hostLoad; split <;> rfl
@[simp] theorem hostLoad_status (a : Word) (s : State) : (hostLoad a s).status = s.status := by
  unfold hostLoad; split <;> rfl
@[simp] theorem hostLoad_phase (a : Word) (s : State) : (hostLoad a s).phase = s.phase := by
  unfold hostLoad; split <;> rfl
@[simp] theorem hostLoad_lat (a : Word) (s : State) : (hostLoad a s).lat = s.lat := by
  unfold hostLoad; split <;> rfl
@[simp] theorem hostLoad_eng (a : Word) (s : State) : (hostLoad a s).eng = s.eng := by
  unfold hostLoad; split <;> rfl
@[simp] theorem hostLoad_hazard (a : Word) (s : State) : (hostLoad a s).hazard = s.hazard := by
  unfold hostLoad; split <;> rfl
@[simp] theorem hostLoad_mem (a : Word) (s : State) : (hostLoad a s).mem = s.mem := by
  unfold hostLoad; split <;> rfl
@[simp] theorem hostLoad_platform (a : Word) (s : State) : (hostLoad a s).platform = s.platform := by
  unfold hostLoad; split <;> rfl
@[simp] theorem hostLoad_script (a : Word) (s : State) : (hostLoad a s).script = s.script := by
  unfold hostLoad; split <;> rfl
@[simp] theorem hostLoad_guards (a : Word) (s : State) : (hostLoad a s).guards = s.guards := by
  unfold hostLoad; split <;> rfl
@[simp] theorem hostReadReg_regs (off : Nat) (s : State) : (hostReadReg off s).regs = s.regs := by
  unfold hostReadReg; split <;> simp
@[simp] theorem sampleIrq_regs (s : State) : (sampleIrq s).regs = s.regs := by
  unfold sampleIrq; split <;> simp
@[simp] theorem hostReadReg_status (off : Nat) (s : State) : (hostReadReg off s).status = s.status := by
  unfold hostReadReg; split <;> simp
@[simp] theorem sampleIrq_status (s : State) : (sampleIrq s).status = s.status := by
  unfold sampleIrq; split <;> simp
@[simp] theorem hostReadReg_phase (off : Nat) (s : State) : (hostReadReg off s).phase = s.phase := by
  unfold hostReadReg; split <;> simp
@[simp] theorem sampleIrq_phase (s : State) : (sampleIrq s).phase = s.phase := by
  unfold sampleIrq; split <;> simp
@[simp] theorem hostReadReg_lat (off : Nat) (s : State) : (hostReadReg off s).lat = s.lat := by
  unfold hostReadReg; split <;> simp
@[simp] theorem sampleIrq_lat (s : State) : (sampleIrq s).lat = s.lat := by
  unfold sampleIrq; split <;> simp
@[simp] theorem hostReadReg_eng (off : Nat) (s : State) : (hostReadReg off s).eng = s.eng := by
  unfold hostReadReg; split <;> simp
@[simp] theorem sampleIrq_eng (s : State) : (sampleIrq s).eng = s.eng := by
  unfold sampleIrq; split <;> simp
@[simp] theorem hostReadReg_hazard (off : Nat) (s : State) : (hostReadReg off s).hazard = s.hazard := by
  unfold hostReadReg; split <;> simp
@[simp] theorem sampleIrq_hazard (s : State) : (sampleIrq s).hazard = s.hazard := by
  unfold sampleIrq; split <;> simp
@[simp] theorem hostReadReg_mem (off : Nat) (s : State) : (hostReadReg off s).mem = s.mem := by
  unfold hostReadReg; split <;> simp
@[simp] theorem sampleIrq_mem (s : State) : (sampleIrq s).mem = s.mem := by
  unfold sampleIrq; split <;> simp
@[simp] theorem hostReadReg_platform (off : Nat) (s : State) : (hostReadReg off s).platform = s.platform := by
  unfold hostReadReg; split <;> simp
@[simp] theorem sampleIrq_platform (s : State) : (sampleIrq s).platform = s.platform := by
  unfold sampleIrq; split <;> simp
@[simp] theorem hostReadReg_script (off : Nat) (s : State) : (hostReadReg off s).script = s.script := by
  unfold hostReadReg; split <;> simp
@[simp] theorem sampleIrq_script (s : State) : (sampleIrq s).script = s.script := by
  unfold sampleIrq; split <;> simp
@[simp] theorem hostReadReg_freeCtr (off : Nat) (s : State) : (hostReadReg off s).freeCtr = s.freeCtr := by
  unfold hostReadReg; split <;> simp
@[simp] theorem sampleIrq_freeCtr (s : State) : (sampleIrq s).freeCtr = s.freeCtr := by
  unfold sampleIrq; split <;> simp
@[simp] theorem writeReg_phase (r : RegName) (v : Word) (s : State) : (writeReg r v s).phase = s.phase := by
  cases r <;> rfl
@[simp] theorem writeReg_lat (r : RegName) (v : Word) (s : State) : (writeReg r v s).lat = s.lat := by
  cases r <;> rfl
@[simp] theorem writeReg_eng (r : RegName) (v : Word) (s : State) : (writeReg r v s).eng = s.eng := by
  cases r <;> rfl
@[simp] theorem writeReg_hazard (r : RegName) (v : Word) (s : State) : (writeReg r v s).hazard = s.hazard := by
  cases r <;> rfl
@[simp] theorem writeReg_mem (r : RegName) (v : Word) (s : State) : (writeReg r v s).mem = s.mem := by
  cases r <;> rfl
@[simp] theorem writeReg_platform (r : RegName) (v : Word) (s : State) : (writeReg r v s).platform = s.platform := by
  cases r <;> rfl
@[simp] theorem writeReg_script (r : RegName) (v : Word) (s : State) : (writeReg r v s).script = s.script := by
  cases r <;> rfl
@[simp] theorem writeReg_readData (r : RegName) (v : Word) (s : State) : (writeReg r v s).readData = s.readData := by
  cases r <;> rfl
@[simp] theorem writeReg_guards (r : RegName) (v : Word) (s : State) : (writeReg r v s).guards = s.guards := by
  cases r <;> rfl
@[simp] theorem writeReg_freeCtr (r : RegName) (v : Word) (s : State) : (writeReg r v s).freeCtr = s.freeCtr := by
  cases r <;> rfl
@[simp] theorem remapRange_regs (r : Region) (s : State) : (remapRange r s).regs = s.regs := rfl
@[simp] theorem remapRange_status (r : Region) (s : State) : (remapRange r s).status = s.status := rfl
@[simp] theorem remapRange_phase (r : Region) (s : State) : (remapRange r s).phase = s.phase := rfl
@[simp] theorem remapRange_lat (r : Region) (s : State) : (remapRange r s).lat = s.lat := rfl
@[simp] theorem remapRange_eng (r : Region) (s : State) : (remapRange r s).eng = s.eng := rfl
@[simp] theorem remapRange_platform (r : Region) (s : State) : (remapRange r s).platform = s.platform := rfl
@[simp] theorem remapRange_script (r : Region) (s : State) : (remapRange r s).script = s.script := rfl
@[simp] theorem remapRange_readData (r : Region) (s : State) : (remapRange r s).readData = s.readData := rfl
@[simp] theorem remapRange_guards (r : Region) (s : State) : (remapRange r s).guards = s.guards := rfl

end Sys2Proof.Machine
end

