-- ==== Sys2Proof/Laws/Ops.lean ====
section
/-! SUPPORT. What the shared operations do, said once: acceptance, the static checks, the error end, and the store of an output. -/

namespace Sys2Proof.Machine

/-- Acceptance: what every accepted word leaves, and then BUSY or the static error (43_commands.md R133). -/
theorem accept_spec (v : Word) (s : State) :
    (accept v s).lat = latchOf v s.regs
    ∧ (accept v s).mem = s.mem ∧ (accept v s).hazard = s.hazard ∧ (accept v s).platform = s.platform
    ∧ (accept v s).script = s.script ∧ (accept v s).readData = s.readData
    ∧ (accept v s).guards = guardOf (latchOf v s.regs) :: s.guards
    ∧ (accept v s).status.done = false ∧ (accept v s).status.cmdOvr = s.status.cmdOvr
    ∧ (accept v s).regs = { s.regs with
        cmd := v, errInfo := (accept v s).regs.errInfo, outLen := 0, inUsed := 0, lenRm := 0, lenTr := 0, result := 0 }
    ∧ (staticCheck s.platform (latchOf v s.regs) = none →
        (accept v s).phase = .busy ∧ (accept v s).status.err = false ∧ (accept v s).status.errcode = .none
        ∧ (accept v s).regs.errInfo = 0)
    ∧ ∀ code info, staticCheck s.platform (latchOf v s.regs) = some (code, info) →
        (accept v s).phase = .idle ∧ (accept v s).status.err = true ∧ (accept v s).status.errcode = code
        ∧ (accept v s).regs.errInfo = info := by
  unfold accept
  cases h : staticCheck s.platform (latchOf v s.regs) with
  | none => simp [h]
  | some e => obtain ⟨c, i⟩ := e; simp [h]

/-- Two regions overlap exactly when they share an address (20_memory.md R54). -/
theorem regionsOverlap_iff (r q : Region) :
    regionsOverlap r q = true ↔ ∃ a, inRegion r a = true ∧ inRegion q a = true := by
  simp only [regionsOverlap, inRegion, Bool.and_eq_true, decide_eq_true_eq]
  constructor
  · rintro ⟨⟨⟨h1, h2⟩, h3⟩, h4⟩
    exact ⟨max r.base q.base, by omega⟩
  · rintro ⟨a, h⟩
    omega

/-- The error a refused access ends a command with: no byte outside the destination changes
(60_exceptions.md R149, R152, 20_memory.md R57). -/
theorem raiseDynamic_read {s : State} (h : Memory.wf s.mem = true) (code : ErrCode) (info : Word) {a : Nat}
    (ha : inRegion s.lat.dstRegion a = false) : Memory.read (raiseDynamic code info s).mem a = Memory.read s.mem a := by
  have hn : ¬ (s.lat.dstRegion.base ≤ a ∧ a < s.lat.dstRegion.base + s.lat.dstRegion.len) := by
    simpa [inRegion] using ha
  exact Memory.read_scramble_outside h _ _ _ _ hn

theorem raiseDynamic_wf {s : State} (h : Memory.wf s.mem = true) (code : ErrCode) (info : Word) :
    Memory.wf (raiseDynamic code info s).mem = true := Memory.wf_scramble h _ _ _

/-- Where every byte is admitted the output is written and the continuation runs. -/
theorem storeOutput_admitted {s : State} {bs : List Byte} (done : State → State)
    (h : ∀ a ∈ addrRange s.lat.dstAddr.toNat bs.length, admits s.platform .write a = true) :
    storeOutput bs done s = done { s with mem := Memory.writeBytes s.mem s.lat.dstAddr.toNat bs } := by
  unfold storeOutput
  rw [refusedOf_eq_nil.mpr h]

/-- The output is written, or the store is refused. -/
theorem storeOutput_cases (bs : List Byte) (done : State → State) (s : State) :
    ((∀ a ∈ addrRange s.lat.dstAddr.toNat bs.length, admits s.platform .write a = true)
        ∧ storeOutput bs done s = done { s with mem := Memory.writeBytes s.mem s.lat.dstAddr.toNat bs })
    ∨ ∃ as, as ≠ [] ∧ as = refusedOf s.platform .write (addrRange s.lat.dstAddr.toNat bs.length)
        ∧ storeOutput bs done s = raiseBus as s := by
  cases h : refusedOf s.platform .write (addrRange s.lat.dstAddr.toNat bs.length) with
  | nil => exact .inl ⟨refusedOf_eq_nil.mp h, storeOutput_admitted done (refusedOf_eq_nil.mp h)⟩
  | cons a as => exact .inr ⟨_, List.cons_ne_nil a as, rfl, by simp [storeOutput, h]⟩

/-- Where a byte is refused the output is not written, and one of the refused addresses is reported. -/
theorem storeOutput_refused {s : State} {bs : List Byte} (done : State → State)
    (h : refusedOf s.platform .write (addrRange s.lat.dstAddr.toNat bs.length) ≠ []) :
    storeOutput bs done s = raiseBus (refusedOf s.platform .write (addrRange s.lat.dstAddr.toNat bs.length)) s := by
  obtain ⟨a, as, has⟩ := List.exists_cons_of_ne_nil h
  simp [storeOutput, has]

/-- When no ERR_ARG is raised (60_exceptions.md R150). -/
theorem argCheck_none (l : Latch) : argCheck l = none ↔
   ((l.op.toNat = 5 → l.k.toNat ≤ 6 ∧ l.predY.toNat < l.height.toNat ∧ l.predX.toNat < l.width.toNat)
      ∧ (l.op.toNat = 6 → l.k.toNat ≤ 7 ∧ l.predY.toNat < l.height.toNat)) := by
  unfold argCheck
  repeat' split
  all_goals simp
  all_goals omega

/-- When no region error is raised (60_exceptions.md R150). -/
theorem regionCheck_none (l : Latch) : regionCheck l = none ↔
   l.srcAddr.toNat + l.srcLen.toNat ≤ 2 ^ 32
      ∧ (l.hasDst = true → l.dstAddr.toNat + l.dstCap.toNat ≤ 2 ^ 32
          ∧ regionsOverlap l.srcRegion l.dstRegion = false)
      ∧ (l.planeSource = true → l.width.toNat * l.height.toNat ≤ l.srcLen.toNat)
      ∧ (l.planeResult = true → l.width.toNat * l.height.toNat ≤ l.dstCap.toNat) := by
  unfold regionCheck
  simp only [Bool.and_eq_true, decide_eq_true_eq]
  have hds : Config.dataSpace = 4294967296 := rfl
  repeat' split
  all_goals (rename_i h; try simp only [reduceCtorEq, false_iff])
  · omega
  · rintro ⟨_, h2, _⟩; have := h2 h.1; omega
  · rintro ⟨_, h2, _⟩; have := (h2 h.1).2; rw [h.2] at this; exact absurd this (by simp)
  · rintro ⟨_, _, h2, _⟩; have := h2 h.1; omega
  · rintro ⟨_, _, _, h2⟩; have := h2 h.1; omega
  · simp only [true_iff]
    rename_i h1 h2 h3 h4
    exact ⟨by omega, fun hd => ⟨by by_contra hc; exact h2 ⟨hd, by omega⟩, by by_contra hc; exact h3 ⟨hd, by simpa using hc⟩⟩,
      fun hd => by by_contra hc; exact h4 ⟨hd, by omega⟩, fun hd => by by_contra hc; exact h ⟨hd, by omega⟩⟩

/-- For accepted dimensions the product W * H fits in 32 bits (60_exceptions.md R148). -/
theorem toNat_planeBytes (p : Platform) (l : Latch) (h1 : l.width.toNat ≤ maxDim p) (h2 : l.height.toNat ≤ maxDim p) :
   (BitVec.ofNat 32 (l.width.toNat * l.height.toNat)).toNat = l.width.toNat * l.height.toNat := by
  have hm : maxDim p ≤ 65535 := by unfold maxDim; omega
  have : l.width.toNat * l.height.toNat ≤ 65535 * 65535 := Nat.mul_le_mul (by omega) (by omega)
  simp; omega


end Sys2Proof.Machine
end

