-- ==== Sys2Proof/Laws/Step.lean ====
section
/-! SUPPORT. What a step can be, said once: where a host access falls, the one step each kind of event takes, and what exec of a record is. -/

namespace Sys2Proof.Machine

/-- An aligned 32-bit access inside the window is one at its offset (10_state.md R17, 20_memory.md R49). -/
theorem windowHit_at (p : Platform) {off : Nat} (h : off < 0x60) (h4 : off % 4 = 0) :
    windowHit p (p.regBase + off) 4 = .hit off := by
  have h1 : ¬ (p.regBase + off + 4 ≤ p.regBase) := by omega
  have h2 : ¬ (p.regBase + 96 ≤ p.regBase + off) := by omega
  simp [windowHit, Config.windowBytes, h4]; omega

/-- Any other access that touches the window is undefined (20_memory.md R49). -/
theorem windowHit_undefined {p : Platform} {addr size : Nat} (h1 : p.regBase < addr + size)
    (h2 : addr < p.regBase + 0x60) (h4 : size ≠ 4 ∨ addr < p.regBase ∨ (addr - p.regBase) % 4 ≠ 0) :
    windowHit p addr size = .undefined := by
  have h1' : ¬ (addr + size ≤ p.regBase) := by omega
  have h2' : ¬ (p.regBase + 96 ≤ addr) := by omega
  unfold windowHit
  simp only [Config.windowBytes, h1', h2', decide_false, Bool.or_self, Bool.false_eq_true, if_false]
  rw [if_neg]
  simp only [Bool.and_eq_true, decide_eq_true_eq, beq_iff_eq]
  omega

/-- A hit lies inside the window, aligned. -/
theorem windowHit_at_spec {p : Platform} {addr size off : Nat} (h : windowHit p addr size = .hit off) :
    off < 0x60 ∧ off % 4 = 0 ∧ addr = p.regBase + off ∧ size = 4 := by
  unfold windowHit at h
  split at h
  · exact absurd h (by simp)
  · rename_i h1
    split at h
    · rename_i h2
      have h3 : addr < p.regBase + 0x60 := by
        by_contra hc
        exact h1 (by rw [Bool.or_eq_true]; right; exact decide_eq_true (by simpa [Config.windowBytes] using hc))
      simp only [Bool.and_eq_true, decide_eq_true_eq, beq_iff_eq] at h2
      simp only [WindowHit.hit.injEq] at h
      omega
    · exact absurd h (by simp)

/-- The step on a host write inside the window. -/
theorem step_hostWrite {s : State} {es : List Event} {off : Nat} {v : Word} (h : off < 0x60) (h4 : off % 4 = 0)
    (hs : s.script = .hostWrite (s.platform.regBase + off) 4 v :: es) :
    step s = match fetchWrite off v { s with script := es } with
      | .run i t => exec i t
      | .done t => .next t
      | .fault r => .fault r
      | .refused r => .refused r := by
  simp only [step, fetchNext, hs, fetchEvent, windowHit_at s.platform h h4] <;> rfl

/-- The step on a host read inside the window. -/
theorem step_hostRead {s : State} {es : List Event} {off : Nat} (h : off < 0x60) (h4 : off % 4 = 0)
    (hs : s.script = .hostRead (s.platform.regBase + off) 4 :: es) :
    step s = .next (hostReadReg off { s with script := es }) := by
  simp [step, fetchNext, hs, fetchEvent, windowHit_at s.platform h h4]

/-- Running a record acts on the hidden state only. -/
theorem exec_record {i : Instr} (h : i.isRecord = true) (s : State) :
    exec i s = .next { s with eng := recordStep i s.eng } := by
  cases i <;> first | rfl | simp [Instr.isRecord] at h

/-- A command written while IDLE is its acceptance (43_commands.md R133). -/
theorem exec_idle {s : State} {v : Word} {i : Instr} (hp : s.phase = .idle) (hd : decodeCmd v = .instr i) :
    exec i s = .next (accept v s) := by
  obtain ⟨h1, h2⟩ := decodeCmd_eq_instr.mp hd
  obtain ⟨he, hr⟩ := encode_of_commandOf h2
  have hv : cmdWord 0 (cmdOp v) (cmdChan v) (cmdFset v) (cmdOrient v) (cmdK v) = v := by
    conv => rhs; rw [← cmdWord_fields v, h1]
  rw [hv] at he
  cases i with
  | srst ig => simp [encode] at he
  | f0 _ => simp [Instr.isRecord] at hr
  | f1 _ => simp [Instr.isRecord] at hr
  | f2 _ => simp [Instr.isRecord] at hr
  | f3 _ => simp [Instr.isRecord] at hr
  | f4 _ => simp [Instr.isRecord] at hr
  | f5 _ => simp [Instr.isRecord] at hr
  | f6 _ => simp [Instr.isRecord] at hr
  | f7 _ => simp [Instr.isRecord] at hr
  | f8 _ => simp [Instr.isRecord] at hr
  | nop c f t k => simp only [encode, Encoding.cmd.injEq] at he; simp only [exec, execNop, hp]; rw [he]
  | encp c f t k => simp only [encode, Encoding.cmd.injEq] at he; simp only [exec, execEncp, hp]; rw [he]
  | decp c f t k => simp only [encode, Encoding.cmd.injEq] at he; simp only [exec, execDecp, hp]; rw [he]
  | encc c f t k => simp only [encode, Encoding.cmd.injEq] at he; simp only [exec, execEncc, hp]; rw [he]
  | decc c f t k => simp only [encode, Encoding.cmd.injEq] at he; simp only [exec, execDecc, hp]; rw [he]
  | pred c f t k => simp only [encode, Encoding.cmd.injEq] at he; simp only [exec, execPred, hp]; rw [he]
  | cost c f t k => simp only [encode, Encoding.cmd.injEq] at he; simp only [exec, execCost, hp]; rw [he]

end Sys2Proof.Machine
end

