-- ==== Sys2Proof/Laws/Completion.lean ====
section
/-! SUPPORT. What the completion step of any command can do, said once: it ends IDLE, done or with an error, and touches memory only in the destination region. -/

namespace Sys2Proof.Machine

/-- `t` ends the command latched in `s`: IDLE; the latch, hazard, platform, script, readData and guards as before; no
byte outside the destination region changed, and none at all for a command without one; and either DONE set with the
code and ERR_INFO as before, or ERR set with a code and only ERR_INFO written. -/
structure Ends (s t : State) : Prop where
  idle : t.phase = .idle
  lat : t.lat = s.lat
  hazard : t.hazard = s.hazard
  platform : t.platform = s.platform
  script : t.script = s.script
  readData : t.readData = s.readData
  guards : t.guards = s.guards
  memWf : Memory.wf s.mem = true → Memory.wf t.mem = true
  outside : ∀ a, Memory.wf s.mem = true → ¬ (s.lat.hasDst = true ∧ inRegion s.lat.dstRegion a = true) →
    Memory.read t.mem a = Memory.read s.mem a
  how : (t.status = { s.status with done := true } ∧ t.regs.errInfo = s.regs.errInfo ∧ t.regs.cmd = s.regs.cmd)
    ∨ ∃ code info, code ≠ .none ∧ t.status = { s.status with err := true, errcode := code }
        ∧ t.regs = { s.regs with errInfo := info }

theorem outside_iff {r : Region} {a : Nat} : inRegion r a = true ↔ r.base ≤ a ∧ a < r.base + r.len := by
  simp [inRegion]

/-- The hidden state does not matter for how a command ends. -/
theorem Ends.of_eng {s t : State} {e : Engine} (h : Ends { s with eng := e } t) : Ends s t :=
  ⟨h.idle, h.lat, h.hazard, h.platform, h.script, h.readData, h.guards, h.memWf, h.outside, h.how⟩

theorem ends_raiseDynamic {s : State} {code : ErrCode} (hc : code ≠ .none) (info : Word) (hd : s.lat.hasDst = true) :
    Ends s (raiseDynamic code info s) where
  idle := rfl
  lat := rfl
  hazard := rfl
  platform := rfl
  script := rfl
  readData := rfl
  guards := rfl
  memWf h := raiseDynamic_wf h code info
  outside a hw ha := raiseDynamic_read hw code info (by
    cases h : inRegion s.lat.dstRegion a
    · rfl
    · exact absurd ⟨hd, h⟩ ha)
  how := .inr ⟨code, info, hc, rfl, rfl⟩

theorem ends_raiseBus {s : State} (as : List Nat) (hd : s.lat.hasDst = true) : Ends s (raiseBus as s) :=
  ends_raiseDynamic (by simp) _ hd

theorem ends_raiseBusNoDst (as : List Nat) (s : State) : Ends s (raiseBusNoDst as s) :=
  ⟨rfl, rfl, rfl, rfl, rfl, rfl, rfl, id, fun _ _ _ => rfl, .inr ⟨.bus, _, by simp, rfl, rfl⟩⟩

/-- Completing with some result registers written. -/
theorem ends_complete (s : State) (R : Regs) (h1 : R.errInfo = s.regs.errInfo) (h2 : R.cmd = s.regs.cmd) :
    Ends s (complete { s with regs := R }) :=
  ⟨rfl, rfl, rfl, rfl, rfl, rfl, rfl, id, fun _ _ _ => rfl, .inl ⟨rfl, h1, h2⟩⟩

/-- Storing an output that fits the destination, then completing. -/
theorem ends_storeOutput {s : State} {bs : List Byte} (R : Regs → Regs) (hd : s.lat.hasDst = true)
    (hl : bs.length ≤ s.lat.dstCap.toNat) (h1 : ∀ r, (R r).errInfo = r.errInfo) (h2 : ∀ r, (R r).cmd = r.cmd) :
    Ends s (storeOutput bs (fun u => complete { u with regs := R u.regs }) s) := by
  rcases storeOutput_cases bs (fun u => complete { u with regs := R u.regs }) s with ⟨_, h⟩ | ⟨as, _, _, h⟩
  · rw [h]
    refine ⟨rfl, rfl, rfl, rfl, rfl, rfl, rfl, fun hw => Memory.wf_writeBytes hw, fun a hw ha => ?_,
      .inl ⟨rfl, h1 _, h2 _⟩⟩
    refine Memory.read_writeBytes_outside a hw fun hc => ha ⟨hd, outside_iff.mpr ⟨hc.1, ?_⟩⟩
    show a < s.lat.dstAddr.toNat + s.lat.dstCap.toNat
    omega
  · rw [h]; exact ends_raiseBus as hd

theorem ends_storeEncoded {s : State} (bs : List Byte) (R : Regs → Regs) (hd : s.lat.hasDst = true)
    (h1 : ∀ r, (R r).errInfo = r.errInfo) (h2 : ∀ r, (R r).cmd = r.cmd) :
    Ends s (storeEncoded bs (fun u => complete { u with regs := R u.regs }) s) := by
  unfold storeEncoded
  split
  · exact ends_raiseDynamic (by simp) _ hd
  · exact ends_storeOutput R hd (by omega) h1 h2

theorem length_flatten_rows {w : Nat} : ∀ (P : Plane), (∀ r ∈ P, r.length = w) → P.flatten.length = P.length * w
  | [], _ => by simp
  | r :: P, h => by
    rw [List.flatten_cons, List.length_append, length_flatten_rows P (fun r hr => h r (by simp [hr])), h r (by simp),
      List.length_cons, Nat.add_mul, Nat.one_mul, Nat.add_comm]

/-- A plane in row-major order: sample `x` of row `y` is byte `y * w + x` (20_memory.md R52). -/
theorem getD_flatten_rows {w : Nat} : ∀ (P : Plane) (y x : Nat), (∀ r ∈ P, r.length = w) → y < P.length → x < w →
    P.flatten.getD (y * w + x) 0 = (P.getD y []).getD x 0
  | [], _, _, _, h, _ => by simp at h
  | r :: P, 0, x, hP, _, hx => by
    have : r.length = w := hP r (by simp)
    simp [List.getD_eq_getElem?_getD]
    rw [List.getElem?_append_left (by omega)]
  | r :: P, y + 1, x, hP, hy, hx => by
    have hr : r.length = w := hP r (by simp)
    have := getD_flatten_rows P y x (fun r h => hP r (by simp [h])) (by simpa using hy) hx
    rw [List.getD_cons_succ, ← this]
    have e : (y + 1) * w + x = r.length + (y * w + x) := by rw [hr]; ring
    rw [List.flatten_cons, e]
    simp only [List.getD_eq_getElem?_getD]
    rw [List.getElem?_append_right (by omega)]
    simp

/-- The plane a decode gives has the dimensions asked for, in either orientation. -/
theorem decodedPlane_shape {len h w : Nat} {read : Nat → Option Byte} {o : Bool} {e : Engine}
    (hd : decodeOriented len read o h w = .done e) :
    (decodedPlane o h e).length = h ∧ ∀ r ∈ decodedPlane o h e, r.length = w := by
  cases o
  · obtain ⟨_, R, hR, hl, hall⟩ :=
      decodeRows_done (e := engineStart w) (w := w) (by simpa [decodeOriented] using hd) rfl
    have : e.rows = R := by simpa [engineStart] using hR
    simp only [decodedPlane, this]
    exact ⟨hl, hall⟩
  · obtain ⟨_, R, hR, hl, _⟩ :=
      decodeRows_done (e := engineStart h) (w := h) (by simpa [decodeOriented] using hd) rfl
    have : e.rows = R := by simpa [engineStart] using hR
    simp [decodedPlane, this, transpose]
    intro _ _; exact hl

theorem decodeOriented_refused_ne {len h w : Nat} {read : Nat → Option Byte} {o : Bool} {os : List Nat}
    (hd : decodeOriented len read o h w = .refusedAt os) : os ≠ [] := by
  cases o <;> exact decodeRows_refused_ne (by simpa [decodeOriented] using hd)

/-- The decoder ends with ERR_UNDERRUN or ERR_BAD_FILTER only (41_scanline_codec.md R119, R120). -/
theorem decodeRows_failed_code {len w : Nat} {read : Nat → Option Byte} {code : ErrCode} {info : Word} :
    ∀ {h : Nat} {e : Engine}, decodeRows len read w h e = .failed code info → code ≠ .none
  | 0, _, hd => by simp [decodeRows] at hd
  | h + 1, e, hd => by
    unfold decodeRows at hd
    split at hd
    · exact decodeRows_failed_code hd
    · simp only [Decoding.failed.injEq] at hd; rw [← hd.1]; simp
    · simp only [Decoding.failed.injEq] at hd; rw [← hd.1]; simp
    · exact absurd hd (by simp)

theorem decodeOriented_failed_code {len h w : Nat} {read : Nat → Option Byte} {o : Bool} {code : ErrCode} {info : Word}
    (hd : decodeOriented len read o h w = .failed code info) : code ≠ .none := by
  cases o <;> exact decodeRows_failed_code (by simpa [decodeOriented] using hd)

/-- Ending a decode into a destination with room for the plane. -/
theorem ends_finishDecode {s : State} {o : Bool} {d : Decoding} (hd : s.lat.hasDst = true)
    (hroom : s.lat.width.toNat * s.lat.height.toNat ≤ s.lat.dstCap.toNat)
    (hshape : ∀ e, d = .done e → (decodedPlane o s.lat.height.toNat e).length = s.lat.height.toNat
      ∧ ∀ r ∈ decodedPlane o s.lat.height.toNat e, r.length = s.lat.width.toNat)
    (hcode : ∀ code info, d = .failed code info → code ≠ .none) : Ends s (finishDecode o d s) := by
  cases d with
  | done e =>
    obtain ⟨h1, h2⟩ := hshape e rfl
    refine Ends.of_eng (e := e) (ends_storeOutput (s := { s with eng := e })
      (fun r => { r with outLen := _, inUsed := _ }) hd ?_ (fun _ => rfl) (fun _ => rfl))
    rw [planeBytes, length_flatten_rows _ h2, h1, Nat.mul_comm]
    exact hroom
  | failed code info => exact ends_raiseDynamic (hcode code info rfl) info hd
  | refusedAt os => exact ends_raiseBus _ hd

/-- The static checks leave room for a decoded plane (60_exceptions.md R150). -/
theorem room_of_staticCheck {p : Platform} {l : Latch} (h : staticCheck p l = none)
    (ho : l.op.toNat = 2 ∨ l.op.toNat = 4) : l.width.toNat * l.height.toNat ≤ l.dstCap.toNat := by
  unfold staticCheck at h
  split at h
  · simp at h
  · split at h
    · simp at h
    · split at h
      · omega
      · split at h
        · simp at h
        · split at h
          · simp at h
          · split at h
            · simp at h
            · exact ((regionCheck_none l).mp h).2.2.2 (by simpa [Latch.planeResult] using ho)

/-- K is a filter id the command has (60_exceptions.md R150). -/
theorem k_of_staticCheck {p : Platform} {l : Latch} (h : staticCheck p l = none) :
    l.rsv = 0 ∧ l.op.toNat < 7 ∧ (l.op.toNat = 5 → l.k.toNat ≤ 6) ∧ (l.op.toNat = 6 → l.k.toNat ≤ 7) := by
  unfold staticCheck at h
  split at h
  · simp at h
  · rename_i hr
    split at h
    · simp at h
    · split at h
      · exact ⟨by simpa using hr, by omega, by omega, by omega⟩
      · split at h
        · simp at h
        · split at h
          · simp at h
          · split at h
            · simp at h
            · rename_i ha
              obtain ⟨h5, h6⟩ := (argCheck_none l).mp ha
              exact ⟨by simpa using hr, by omega, fun h => (h5 h).1, fun h => (h6 h).1⟩

/-- The completion step of a command that passed the static checks: it is exec of the latched command, and it ends
the command (43_commands.md R134, R135). -/
theorem exec_busy_ends {s : State} (hp : s.phase = .busy) (hc : staticCheck s.platform s.lat = none) :
    ∃ i t, decodeCmd s.lat.word = .instr i ∧ exec i s = .next t ∧ Ends s t := by
  obtain ⟨hr, ho, h5, h6⟩ := k_of_staticCheck hc
  have hroom := room_of_staticCheck hc
  have hw : s.lat.word = cmdWord 0 s.lat.op s.lat.chan s.lat.fset s.lat.orient s.lat.k := by
    rw [Latch.word, hr]
  have hcase : s.lat.op.toNat = 0 ∨ s.lat.op.toNat = 1 ∨ s.lat.op.toNat = 2 ∨ s.lat.op.toNat = 3
      ∨ s.lat.op.toNat = 4 ∨ s.lat.op.toNat = 5 ∨ s.lat.op.toNat = 6 := by omega
  have hdst : 1 ≤ s.lat.op.toNat → s.lat.op.toNat ≤ 4 → s.lat.hasDst = true := fun h1 h2 => by
    simp [Latch.hasDst, h1, h2]
  rw [hw, decodeCmd_cmdWord]
  unfold commandOf
  rcases hcase with h | h | h | h | h | h | h <;> rw [h]
  · exact ⟨_, complete s, rfl, by simp only [exec, execNop, hp], ends_complete s s.regs rfl rfl⟩
  · refine ⟨_, completeEncp s.lat.fset s.lat.orient s, rfl, by simp only [exec, execEncp, hp], ?_⟩
    unfold completeEncp
    split
    · exact Ends.of_eng (ends_storeEncoded _ (fun r => { r with outLen := _ }) (hdst (by omega) (by omega))
        (fun _ => rfl) (fun _ => rfl))
    · exact ends_raiseBus _ (hdst (by omega) (by omega))
  · refine ⟨_, completeDecp s.lat.orient s, rfl, by simp only [exec, execDecp, hp], ?_⟩
    exact ends_finishDecode (hdst (by omega) (by omega)) (hroom (by omega)) (fun e he => decodedPlane_shape he)
      (fun _ _ hf => decodeOriented_failed_code hf)
  · refine ⟨_, completeEncc s.lat.chan s.lat.fset s, rfl, by simp only [exec, execEncc, hp], ?_⟩
    unfold completeEncc
    split
    · exact Ends.of_eng (ends_storeEncoded _
        (fun r => { r with outLen := _, lenRm := _, lenTr := _, scanFlags := setScanFlag r.scanFlags _ _ })
        (hdst (by omega) (by omega)) (fun _ => rfl) (fun _ => rfl))
    · exact ends_raiseBus _ (hdst (by omega) (by omega))
  · refine ⟨_, completeDecc s, rfl, by simp only [exec, execDecc, hp], ?_⟩
    unfold completeDecc
    split
    · refine ends_finishDecode (hdst (by omega) (by omega)) (hroom (by omega)) (fun e he => ?_) (fun c i hf => ?_)
      · unfold decodeChannel at he
        split at he
        · simp at he
        · exact decodedPlane_shape he
      · unfold decodeChannel at hf
        split at hf
        · simp only [Decoding.failed.injEq] at hf; rw [← hf.1]; simp
        · exact decodeOriented_failed_code hf
    · exact ends_raiseBus _ (hdst (by omega) (by omega))
  · have hk : s.lat.k.toNat < allPreds.length := by have := h5 h; simp [allPreds]; omega
    have hpp : predOfId s.lat.k.toNat = some allPreds[s.lat.k.toNat] := List.getElem?_eq_getElem hk
    refine ⟨_, completePred allPreds[s.lat.k.toNat] s, rfl, by simp only [exec, execPred, hp, hpp], ?_⟩
    unfold completePred
    split
    · exact ends_complete s { s.regs with result := _ } rfl rfl
    · exact ends_raiseBusNoDst _ s
  · obtain ⟨r, hrow⟩ : ∃ r, costRow s.lat.k.toNat s = some r :=
      ⟨_, List.getElem?_eq_getElem (by have := h6 h; simp; omega)⟩
    refine ⟨_, completeCost r s, rfl, by simp only [exec, execCost, hp, hrow], ?_⟩
    unfold completeCost
    split
    · exact ends_complete s { s.regs with result := _ } rfl rfl
    · exact ends_raiseBusNoDst _ s

end Sys2Proof.Machine
end

