-- ==== Sys2Proof/Laws/Inversion.lean ====
section
/-! SUPPORT. Everything a step can do, said once: from a state whose command in progress passed its checks, a step is one of the cases of `Took`. -/

namespace Sys2Proof.Machine

/-- What a step does for the event `o` (none: an empty script) at `s`, the event being off the script. -/
inductive Took (o : Option Event) (s : State) : State → Prop where
  | stayed : Took o s s
  | accepted (v : Word) : s.phase = .idle → Took o s (accept v s)
  | ended (t : State) : s.phase = .busy → Ends s t → Took o s t
  | reset : Took o s (softReset s)
  | dropped : s.phase = .busy → Took o s (overrun s)
  | wrote (r : RegName) (v : Word) : Took o s (writeReg r v s)
  | hostRead (off : Nat) : o = some (.hostRead (s.platform.regBase + off) 4) → Took o s (hostReadReg off s)
  | memWrote (a : Word) (b : Byte) : o = some (.memWrite a b) → Took o s (hostStore a b s)
  | memRead (a : Word) : Took o s (hostLoad a s)
  | sampled : o = some .irqSample → Took o s (sampleIrq s)
  | gated : s.phase = .busy → Took o s (markHazard true s)
  | remapped (base len : Nat) : o = some (.remap base len) → Took o s (remapRange ⟨base, len⟩ s)

/-- The outcome of what was fetched. -/
def Fetched.outcome : Fetched → Host.Outcome State Fault Refusal
  | .run i t => exec i t
  | .done t => .next t
  | .fault r => .fault r
  | .refused r => .refused r

theorem step_eq (s : State) : step s = (fetchNext s).outcome := by
  unfold step Fetched.outcome; rfl

/-- The engine's turn (43_commands.md R135). -/
theorem fetchEngine_spec {s : State} (hc : s.phase = .busy → staticCheck s.platform s.lat = none) (o : Option Event) :
    ∃ t, (fetchEngine s).outcome = .next t ∧ Took o s t ∧ (s.phase = .busy → Ends s t) := by
  cases hp : s.phase with
  | idle => exact ⟨s, by simp [fetchEngine, hp, Fetched.outcome], .stayed, by simp⟩
  | busy =>
    obtain ⟨i, t, hd, he, hE⟩ := exec_busy_ends hp (hc hp)
    exact ⟨t, by simp [fetchEngine, hp, hd, Fetched.outcome, he], .ended t hp hE, fun _ => hE⟩

/-- A host write inside the window (43_commands.md R145). -/
theorem fetchWrite_spec (off : Nat) (v : Word) (s : State) (o : Option Event) :
    ∃ t, (fetchWrite off v s).outcome = .next t ∧ Took o s t := by
  unfold fetchWrite
  split
  · unfold fetchCmd
    cases hp : s.phase with
    | busy => exact ⟨_, rfl, .dropped hp⟩
    | idle =>
      simp only
      split
      · rename_i i hd
        exact ⟨_, exec_idle hp hd, .accepted v hp⟩
      · exact ⟨_, rfl, .accepted v hp⟩
  · unfold fetchCtrl decodeCtrl
    by_cases hb : wordBit v 0 = true
    · exact ⟨_, by rw [if_pos hb]; rfl, .reset⟩
    · exact ⟨_, by rw [if_neg hb]; rfl, .stayed⟩
  · exact ⟨_, rfl, .wrote _ v⟩
  · exact ⟨_, rfl, .stayed⟩

/-- Every event: one of the cases, or a refusal. -/
theorem fetchEvent_spec (e : Event) {s : State} (hc : s.phase = .busy → staticCheck s.platform s.lat = none) :
    (∃ t, (fetchEvent e s).outcome = .next t ∧ Took (some e) s t)
    ∨ ∃ r, (fetchEvent e s).outcome = .refused r := by
  cases e with
  | hostWrite addr size v =>
    simp only [fetchEvent]
    cases windowHit s.platform addr size with
    | outside => exact .inl ⟨s, rfl, .stayed⟩
    | hit off => exact .inl (fetchWrite_spec off v s _)
    | undefined => exact .inr ⟨_, rfl⟩
  | hostRead addr size =>
    simp only [fetchEvent]
    cases hw : windowHit s.platform addr size with
    | outside => exact .inl ⟨s, rfl, .stayed⟩
    | hit off =>
      obtain ⟨_, _, h1, h2⟩ := windowHit_at_spec hw
      exact .inl ⟨_, rfl, .hostRead off (by rw [h1, h2])⟩
    | undefined => exact .inr ⟨_, rfl⟩
  | memWrite a b => exact .inl ⟨_, rfl, .memWrote a b rfl⟩
  | memRead a => exact .inl ⟨_, rfl, .memRead a⟩
  | irqSample => exact .inl ⟨_, rfl, .sampled rfl⟩
  | engine =>
    obtain ⟨t, h1, h2, _⟩ := fetchEngine_spec hc (some .engine)
    exact .inl ⟨t, h1, h2⟩
  | gate =>
    cases hp : s.phase with
    | idle => exact .inr ⟨.platformGating, by simp [fetchEvent, hp, Fetched.outcome]⟩
    | busy => exact .inl ⟨markHazard true s, by simp [fetchEvent, hp, Fetched.outcome], .gated hp⟩
  | remap base len => exact .inl ⟨_, rfl, .remapped base len rfl⟩

/-- The step, inverted: it is never a fault, and a next state is one of the cases. -/
theorem step_spec {s : State} (hc : s.phase = .busy → staticCheck s.platform s.lat = none) :
    (∃ r, step s = .refused r)
    ∨ ∃ t, step s = .next t
      ∧ ((s.script = [] ∧ Took none s t ∧ (s.phase = .busy → Ends s t))
        ∨ ∃ e es, s.script = e :: es ∧ Took (some e) { s with script := es } t) := by
  rw [step_eq]
  unfold fetchNext
  cases hs : s.script with
  | nil =>
    obtain ⟨t, h1, h2, h3⟩ := fetchEngine_spec hc none
    exact .inr ⟨t, h1, .inl ⟨rfl, h2, h3⟩⟩
  | cons e es =>
    rcases fetchEvent_spec e (s := { s with script := es }) hc with ⟨t, h1, h2⟩ | ⟨r, h⟩
    · exact .inr ⟨t, h1, .inr ⟨e, es, rfl, h2⟩⟩
    · exact .inl ⟨r, h⟩

/-- A read of another offset than that of STATUS observes no end (70_reset_and_hazards.md R179). -/
theorem hostReadReg_guards_of_ne {off : Nat} (h : off ≠ 0x10) (s : State) : (hostReadReg off s).guards = s.guards := by
  unfold hostReadReg
  split
  · rename_i hr
    exact absurd hr (by unfold regAt; split <;> simp_all)
  · rfl

/-- While BUSY no end is observed. -/
theorem observeEnd_of_busy {s : State} (h : s.phase = .busy) : observeEnd s = s := by simp [observeEnd, h]

/-- A guard stays over every event but a read of STATUS while IDLE and a look at irq at 1 while IDLE
(70_reset_and_hazards.md R179; log 12). -/
theorem Took.guards {o : Option Event} {s t : State} (h : Took o s t) {g : Guard} (hg : g ∈ s.guards) :
    g ∈ t.guards
    ∨ s.phase = .idle ∧ o = some (.hostRead (s.platform.regBase + 0x10) 4)
    ∨ s.phase = .idle ∧ o = some .irqSample ∧ irq s = true := by
  cases h with
  | stayed => exact .inl hg
  | accepted v hp => exact .inl (by rw [(accept_spec v s).2.2.2.2.2.2.1]; exact List.mem_cons_of_mem _ hg)
  | ended _ hp hE => exact .inl (by rw [hE.guards]; exact hg)
  | reset => exact .inl (by rw [softReset_guards]; exact hg)
  | dropped hp => exact .inl hg
  | wrote r v => exact .inl (by rw [writeReg_guards]; exact hg)
  | hostRead off ho =>
    by_cases h10 : off = 0x10
    · subst h10
      cases hp : s.phase with
      | idle => exact .inr (.inl ⟨rfl, ho⟩)
      | busy => exact .inl (by simpa [hostReadReg, regAt, observeEnd_of_busy hp] using hg)
    · exact .inl (by rw [hostReadReg_guards_of_ne h10]; exact hg)
  | memWrote a b _ => exact .inl hg
  | memRead a => exact .inl (by rw [hostLoad_guards]; exact hg)
  | sampled ho =>
    unfold sampleIrq
    split
    · rename_i hi
      cases hp : s.phase with
      | idle => exact .inr (.inr ⟨rfl, ho, hi⟩)
      | busy => exact .inl (by simpa [observeEnd_of_busy hp] using hg)
    · exact .inl hg
  | gated hp => exact .inl hg
  | remapped base len _ => exact .inl (by rw [remapRange_guards]; exact hg)

end Sys2Proof.Machine
end

