-- ==== Sys2Proof/Laws/PerInstr.lean ====
section
/-! SUPPORT. Every instruction encodes to a legal word or record of its own space, instruction by instruction. -/

namespace Sys2Proof.Laws.LegalEncoding

/-- The encoding is a CMD word with no reserved bit set, a CTRL word with bit 0 set, or a record whose id gives the
length of its body in every stream it fits (30_encoding.md R69, R73, R78). -/
def Statement (i : Instr) : Prop :=
  (∃ v, encode i = .cmd v ∧ cmdRsv v = 0) ∨ (∃ v, encode i = .ctrl v ∧ wordBit v 0 = true)
    ∨ ∃ id body, encode i = .record (id :: body) ∧ ∀ w, i.fits w = true → recordBodyLength w id = some body.length

theorem nop (chan : BitVec 2) (fset orient : Bool) (k : BitVec 4) : Statement (.nop chan fset orient k) :=
  .inl ⟨_, rfl, cmdRsv_cmdWord 0 _ chan fset orient k⟩

theorem encp (chan : BitVec 2) (fset orient : Bool) (k : BitVec 4) : Statement (.encp chan fset orient k) :=
  .inl ⟨_, rfl, cmdRsv_cmdWord 0 _ chan fset orient k⟩

theorem decp (chan : BitVec 2) (fset orient : Bool) (k : BitVec 4) : Statement (.decp chan fset orient k) :=
  .inl ⟨_, rfl, cmdRsv_cmdWord 0 _ chan fset orient k⟩

theorem encc (chan : BitVec 2) (fset orient : Bool) (k : BitVec 4) : Statement (.encc chan fset orient k) :=
  .inl ⟨_, rfl, cmdRsv_cmdWord 0 _ chan fset orient k⟩

theorem decc (chan : BitVec 2) (fset orient : Bool) (k : BitVec 4) : Statement (.decc chan fset orient k) :=
  .inl ⟨_, rfl, cmdRsv_cmdWord 0 _ chan fset orient k⟩

theorem pred (chan : BitVec 2) (fset orient : Bool) (k : BitVec 4) : Statement (.pred chan fset orient k) :=
  .inl ⟨_, rfl, cmdRsv_cmdWord 0 _ chan fset orient k⟩

theorem cost (chan : BitVec 2) (fset orient : Bool) (k : BitVec 4) : Statement (.cost chan fset orient k) :=
  .inl ⟨_, rfl, cmdRsv_cmdWord 0 _ chan fset orient k⟩

theorem srst (ignored : BitVec 31) : Statement (.srst ignored) :=
  .inr (.inl ⟨_, rfl, by
    have h := decodeCtrl_srst ignored
    unfold decodeCtrl at h
    split at h
    · assumption
    · exact absurd h (by simp)⟩)

theorem f0 (body : List Byte) : Statement (.f0 body) :=
  .inr (.inr ⟨_, _, rfl, fun w h => by simp [Instr.fits] at h; simp [recordBodyLength, h]⟩)

theorem f1 (body : List Byte) : Statement (.f1 body) :=
  .inr (.inr ⟨_, _, rfl, fun w h => by simp [Instr.fits] at h; simp [recordBodyLength, h]⟩)

theorem f2 (body : List Byte) : Statement (.f2 body) :=
  .inr (.inr ⟨_, _, rfl, fun w h => by simp [Instr.fits] at h; simp [recordBodyLength, h]⟩)

theorem f3 (body : List Byte) : Statement (.f3 body) :=
  .inr (.inr ⟨_, _, rfl, fun w h => by simp [Instr.fits] at h; simp [recordBodyLength, h]⟩)

theorem f4 (body : List Byte) : Statement (.f4 body) :=
  .inr (.inr ⟨_, _, rfl, fun w h => by simp [Instr.fits] at h; simp [recordBodyLength, h]⟩)

theorem f5 (body : List Byte) : Statement (.f5 body) :=
  .inr (.inr ⟨_, _, rfl, fun w h => by simp [Instr.fits] at h; simp [recordBodyLength, h]⟩)

theorem f6 (body : List Byte) : Statement (.f6 body) :=
  .inr (.inr ⟨_, _, rfl, fun w h => by simp [Instr.fits] at h; simp [recordBodyLength, h]⟩)

theorem f7 (body : List Byte) : Statement (.f7 body) :=
  .inr (.inr ⟨_, _, rfl, fun w h => by simp [Instr.fits] at h; simp [recordBodyLength, h]⟩)

theorem f8 (value : Byte) : Statement (.f8 value) := .inr (.inr ⟨_, _, rfl, fun _ _ => rfl⟩)

end Sys2Proof.Laws.LegalEncoding
end

