-- ==== Sys2Proof/Tests/Slice0.lean ====
section
/-! SUPPORT. The model's own tests, with expected results from spec/95_test_vectors.md or worked by hand from the rule named; the smoke test of WellFormed; and a witness for the hypotheses of every obligation that has some. -/

namespace Sys2Proof.Tests

open Sys2Proof Sys2Proof.Machine

/-! ### Helpers -/

/-- The next state, if there is one. -/
def after (o : Host.Outcome State Fault Refusal) : Option State :=
  match o with
  | .next t => some t
  | .fault _ => none
  | .refused _ => none

/-- The plane E of 95_test_vectors.md. -/
def planeE : Plane := [[10, 20, 30], [40, 50, 60], [70, 80, 90]]

/-- E at 0x1000. -/
def memE : Memory := Memory.writeBytes [] 0x1000 (planeBytes planeE)

/-- Some stream at 0x2000. -/
def memStream (bytes : List Byte) : Memory := Memory.writeBytes [] 0x2000 bytes

/-- A latch for E at 0x1000 with destination 0x2000 (95_test_vectors.md section 6.1). -/
def latE (op k : BitVec 4) (fset orient : Bool) (cap : Word) : Latch :=
  { Latch.reset with
    op := op, k := k, fset := fset, orient := orient, width := 3, height := 3, srcAddr := 0x1000, srcLen := 9
    dstAddr := 0x2000, dstCap := cap }

/-- A latch for a stream of `n` bytes at 0x2000, a plane of 3 by `h`, destination 0x3000. -/
def latStream (h n : Word) (orient : Bool) : Latch :=
  { Latch.reset with
    op := 2, orient := orient, width := 3, height := h, srcAddr := 0x2000, srcLen := n, dstAddr := 0x3000
    dstCap := 9 }

/-- A command in progress. -/
def busyWith (l : Latch) (m : Memory) : State :=
  { State.reset with
    phase := .busy, lat := l, guards := [guardOf l], mem := m, regs := { Regs.reset with cmd := l.word } }

/-- The block idle with the registers of section 6.1 and one host write pending. -/
def idleE (off : Nat) (v : Word) : State :=
  { State.reset with
    mem := memE, script := [.hostWrite off 4 v]
    regs := { Regs.reset with width := 3, height := 3, srcAddr := 0x1000, srcLen := 9, dstAddr := 0x2000, dstCap := 64 } }

/-- The engine after `E`'s first two rows, for one more record (95_test_vectors.md section 4.1). -/
def recordE : State :=
  { State.reset with
    phase := .busy
    eng := { engineStart 3 with prior := [40, 50, 60], priorprior := [10, 20, 30], cur := 8, y := 2 } }

/-- The row a record gives, and the cursor after it. -/
def rowAfter (i : Instr) : Option (List Byte × Nat) :=
  (after (exec i recordE)).map fun t => (t.eng.prior, t.eng.cur)

/-! ### Decoding: words written out from 30_encoding.md R69, R71, R73, R75, R77 -/

/-- OP 0, K 15, the other fields 0. -/
theorem test_decode_nop : decodeCmd 0b00000000000000000000_1111_0_0_00_0000 = .instr (.nop 0 false false 15) := by decide
theorem test_decode_encp : decodeCmd 0b00000000000000000000_0000_1_1_00_0001 = .instr (.encp 0 true true 0) := by decide
theorem test_decode_decp : decodeCmd 0b00000000000000000000_0000_1_0_00_0010 = .instr (.decp 0 false true 0) := by decide
theorem test_decode_encc : decodeCmd 0b00000000000000000000_0000_0_0_11_0011 = .instr (.encc 3 false false 0) := by decide
theorem test_decode_decc : decodeCmd 0b00000000000000000000_0000_0_0_10_0100 = .instr (.decc 2 false false 0) := by decide
theorem test_decode_pred : decodeCmd 0b00000000000000000000_0110_0_0_00_0101 = .instr (.pred 0 false false 6) := by decide
theorem test_decode_cost : decodeCmd 0b00000000000000000000_0111_0_0_00_0110 = .instr (.cost 0 false false 7) := by decide
theorem test_decode_srst : decodeCtrl 0b00000000000000000000000000000011 = .instr (.srst 1) := by decide
theorem test_decode_f0 : decodeRecord 2 [0x00, 1, 2, 3] = .instr (.f0 [1, 2]) := by decide
theorem test_decode_f1 : decodeRecord 2 [0x01, 1, 2, 3] = .instr (.f1 [1, 2]) := by decide
theorem test_decode_f2 : decodeRecord 2 [0x02, 1, 2, 3] = .instr (.f2 [1, 2]) := by decide
theorem test_decode_f3 : decodeRecord 2 [0x03, 1, 2, 3] = .instr (.f3 [1, 2]) := by decide
theorem test_decode_f4 : decodeRecord 2 [0x04, 1, 2, 3] = .instr (.f4 [1, 2]) := by decide
theorem test_decode_f5 : decodeRecord 2 [0x05, 1, 2, 3] = .instr (.f5 [1, 2]) := by decide
theorem test_decode_f6 : decodeRecord 2 [0x06, 1, 2, 3] = .instr (.f6 [1, 2]) := by decide
theorem test_decode_f7 : decodeRecord 2 [0x07, 1, 2, 3] = .instr (.f7 [1, 2]) := by decide
theorem test_decode_f8 : decodeRecord 2 [0x08, 1, 2, 3] = .instr (.f8 1) := by decide

/-- Section 6.3: the field a command ignores is not shown, a word is rejected by name. -/
theorem test_disassemble : disassemble 0xC1 = .encp true true ∧ disassemble 0x33 = .encc 3 false
    ∧ disassemble 0xF00 = .nop ∧ disassemble 0x09 = .reserved ∧ disassemble 0x80000000 = .errRsvd 0x80000000 := by decide

/-! ### WellFormed refuses an ill-formed term of each kind -/

theorem test_wf_refuses_empty_body : (Instr.f0 []).wf = false ∧ (Instr.f1 []).wf = false ∧ (Instr.f2 []).wf = false
    ∧ (Instr.f3 []).wf = false ∧ (Instr.f4 []).wf = false ∧ (Instr.f5 []).wf = false ∧ (Instr.f6 []).wf = false
    ∧ (Instr.f7 []).wf = false := by decide

theorem test_wf_refuses_long_body (body : List Byte) (h : body.length = 65536) : bodyOk body = false := by
  rw [bodyOk, h]; decide

theorem test_wf_accepts_widest_body (body : List Byte) (h : body.length = 65535) : bodyOk body = true := by
  rw [bodyOk, h]; decide

theorem test_fits_refuses_other_width : (Instr.f0 [1]).fits 2 = false ∧ (Instr.f1 [1]).fits 2 = false
    ∧ (Instr.f2 [1]).fits 2 = false ∧ (Instr.f3 [1]).fits 2 = false ∧ (Instr.f4 [1]).fits 2 = false
    ∧ (Instr.f5 [1]).fits 2 = false ∧ (Instr.f6 [1]).fits 2 = false ∧ (Instr.f7 [1]).fits 2 = false := by decide

/-! ### The commands (95_test_vectors.md sections 6.1, 6.2) -/

/-- WIDTH = HEIGHT = 0: NOP skips the checks, and completes with DONE. -/
theorem test_nop_skips_dim : (after (exec (.nop 0 false false 0) State.reset)).map (fun t => (t.phase, t.status.err))
    = some (.busy, false) := by decide

theorem test_nop_completes : (after (exec (.nop 0 false false 0) (busyWith Latch.reset []))).map statusWord
    = some 0x2 := by decide

theorem test_encp_full : (after (exec (.encp 0 true false 0) (busyWith (latE 1 0 true false 64) memE))).map
    (fun t => (statusWord t, t.regs.outLen, Memory.readBytes t.mem 0x2000 12))
    = some (0x2, 12, [1, 10, 10, 10, 5, 30, 0, 0, 5, 30, 0, 0]) := by decide

theorem test_encp_transposed : (after (exec (.encp 0 true true 0) (busyWith (latE 1 0 true true 64) memE))).map
    (fun t => Memory.readBytes t.mem 0x2000 12) = some [1, 10, 30, 30, 5, 10, 0, 0, 5, 10, 0, 0] := by decide

/-- Section 4.2: the restricted stream of E. -/
theorem test_decp_restricted_stream :
    (after (exec (.decp 0 false false 0)
      (busyWith (latStream 3 12 false) (memStream [4, 10, 10, 10, 4, 30, 10, 10, 4, 30, 10, 10])))).map
      (fun t => (statusWord t, t.regs.outLen, t.regs.inUsed, Memory.readBytes t.mem 0x3000 9))
    = some (0x2, 9, 12, [10, 20, 30, 40, 50, 60, 70, 80, 90]) := by decide

/-- Program P2: record 1 has id 9. -/
theorem test_decp_bad_filter :
    (after (exec (.decp 0 false false 0) (busyWith (latStream 3 8 false) (memStream [1, 10, 10, 10, 9, 0, 0, 0])))).map
      (fun t => (statusWord t, t.regs.errInfo)) = some (0x904, 4) := by decide

/-- ENCC has no numbers without a compressor: acceptance with CHAN 2 goes BUSY and latches the flag bit 2. -/
theorem test_encc_accepted : (after (exec (.encc 2 true false 0) (idleE 0 0))).map
    (fun t => (statusWord t, t.lat.flag, t.regs.cmd)) = some (0x1, false, 0x63) := by decide

/-- DECC latches SCAN_FLAGS[CHAN]: bit 2 of 0x4. -/
theorem test_decc_latches_flag :
    (after (exec (.decc 2 false false 0)
      { idleE 0 0 with regs := { (idleE 0 0).regs with scanFlags := 0x4 } })).map
      (fun t => (statusWord t, t.lat.flag)) = some (0x1, true) := by decide

theorem test_pred_knight : (after (exec (.pred 0 false false 6)
    (busyWith { latE 5 6 false false 64 with predY := 2, predX := 2 } memE))).map (fun t => (statusWord t, t.regs.result))
    = some (0x2, 30) := by decide

/-- A negative Linear prediction. -/
theorem test_pred_linear_negative : (after (exec (.pred 0 false false 5)
    (busyWith { latE 5 5 false false 0 with width := 2, height := 2, srcLen := 4, predY := 1, predX := 1 }
      (Memory.writeBytes [] 0x1000 [255, 0, 0, 0])))).map (fun t => t.regs.result) = some 0xFFFFFF01 := by decide

theorem test_cost_knight : (after (exec (.cost 0 false false 6)
    (busyWith { latE 6 6 false false 64 with predY := 2 } memE))).map (fun t => (statusWord t, t.regs.result))
    = some (0x2, 205) := by decide

theorem test_cost_escape_seven : (after (exec (.cost 0 false false 7)
    (busyWith { latE 6 7 false false 64 with predY := 2 } memE))).map (fun t => t.regs.result) = some 90 := by decide

/-- Program P5: a reset while a command is in progress. -/
theorem test_srst_while_busy : (after (exec (.srst 0) (busyWith (latE 1 0 true false 64) memE))).map
    (fun t => (statusWord t, t.regs.cmd, t.regs.width, Memory.readBytes t.mem 0x1000 3))
    = some (0, 0, 0, [10, 20, 30]) := by decide

/-! ### The records (95_test_vectors.md section 4.1) -/

theorem test_f0 : rowAfter (.f0 [5, 0xFB, 0x80]) = some ([5, 251, 128], 12) := by decide
theorem test_f1 : rowAfter (.f1 [5, 0xFB, 0x80]) = some ([5, 0, 128], 12) := by decide
theorem test_f2 : rowAfter (.f2 [5, 0xFB, 0x80]) = some ([45, 45, 188], 12) := by decide
theorem test_f3 : rowAfter (.f3 [5, 0xFB, 0x80]) = some ([25, 32, 174], 12) := by decide
theorem test_f4 : rowAfter (.f4 [5, 0xFB, 0x80]) = some ([45, 45, 188], 12) := by decide
theorem test_f5 : rowAfter (.f5 [5, 0xFB, 0x80]) = some ([45, 50, 188], 12) := by decide
theorem test_f6 : rowAfter (.f6 [5, 0xFB, 0x80]) = some ([5, 0, 158], 12) := by decide
theorem test_f7 : rowAfter (.f7 [0x0A, 0xF6, 0x7F]) = some ([50, 40, 187], 12) := by decide
theorem test_f8 : rowAfter (.f8 0xFF) = some ([255, 255, 255], 10) := by decide

/-! ### The codec (95_test_vectors.md sections 2.2, 3, 4.2) -/

theorem test_paeth_ties : paeth 5 20 15 = 5 ∧ paeth 5 20 10 = 20 ∧ paeth 10 50 12 = 50 ∧ paeth 10 30 20 = 20 := by decide

theorem test_costs_of_row_two : (candidateRows [70, 80, 90] [40, 50, 60] [10, 20, 30]).map rowCost
    = [240, 90, 90, 90, 50, 30, 205, 90] := by decide

/-- Id 0 beats ids 1 and 6 by lowest id. -/
theorem test_encode_lowest_id : encodePlane true 2 [[128, 0], [0, 128]] = [0, 128, 0, 0, 0, 128] := by decide

/-- Delta 0x80 on 100 clips to 0. -/
theorem test_delta_clips : (match decodePlane [8, 100, 7, 0x80] 2 1 with
    | .done e => e.rows
    | _ => []) = [[100], [0]] := by decide

/-! ### The window and the table reader -/

/-- Offset 0x18 keeps bits 1:0 of the word written. -/
theorem test_irq_en_keeps_two_bits : (after (step { State.reset with script := [.hostWrite 0x18 4 0xFFFFFFFF] })).map
    (readReg .irqEn) = some 3 := by decide

/-- Little-endian lanes of ID: 50 49 46 00. -/
theorem test_id_lanes : (List.range 4).map (byteLane (readReg .id State.reset)) = [0x50, 0x49, 0x46, 0x00] := by decide

theorem test_table_words : decodeTableWord 32 0x605 = some (.pred 0 false false 6) ∧ decodeTableWord 8 7 = some (.f7 [0])
    ∧ decodeTableWord 32 0xFFFFFFFF = some (.srst 0x7FFFFFFF) ∧ decodeTableWord 32 8 = none := by decide

/-- A command word placed for the next step is accepted by it; at reset the checks end it with ERR_DIM. -/
theorem test_fetch_word_cmd : (after (step (State.reset.withFetchWord 32 0x605))).map
    (fun t => (t.regs.cmd, statusWord t)) = some (0x605, 0x304) := by decide

/-- A record placed for the next step is decoded by it: F0 of one sample. -/
theorem test_fetch_word_record : (after (step (State.reset.withFetchWord 8 0))).map
    (fun t => (statusWord t, t.regs.inUsed)) = some (0x2, 2) := by decide

/-! ### Witnesses: a state and operands that meet the hypotheses of each obligation -/

theorem witness_DecodeOfEncode : (Instr.f3 [1, 2]).fits 2 = true ∧ (Instr.f8 9).fits 5 = true := by decide

theorem witness_CmdWordOfItsInstruction : decodeCmd 0xFF6 = .instr (.cost 3 true true 15) := by decide

/-- Ids 9, 8 and 7, where the clauses meet. -/
theorem witness_RecordLengthFromFirstByte : 9 ≤ (9 : Byte).toNat ∧ (8 : Byte).toNat ≤ 8 ∧ 1 ≤ [(7 : Byte)].length
    ∧ decodeRecord 2 [8, 7] = .instr (.f8 7)
    ∧ decodeRecord 2 [7, 7, 8] = .instr (.f7 [7, 8]) := by decide

/-- The lowest reserved bit; OP 7; OP 6. -/
theorem witness_RejectedCmdWordEndsAtAcceptance : (idleE 0x0C 0x1000).phase = .idle
    ∧ (idleE 0x0C 0x1000).script = [.hostWrite ((idleE 0x0C 0x1000).platform.regBase + 0x0C) 4 0x1000]
    ∧ (0x1000 : Word) >>> 12 ≠ 0 ∧ (7 : Word) >>> 12 = 0 ∧ 7 ≤ ((7 : Word) &&& 0xF).toNat ∧ (0xFF6 : Word) >>> 12 = 0
    ∧ ((0xFF6 : Word) &&& 0xF).toNat < 7 := by decide

theorem witness_StepRunsWrittenCommand : (idleE 0x0C 0x41).phase = .idle
    ∧ (idleE 0x0C 0x41).script = [.hostWrite ((idleE 0x0C 0x41).platform.regBase + 0x0C) 4 0x41]
    ∧ decodeCmd 0x41 = .instr (.encp 0 true false 0) := by decide

theorem witness_StepRunsSoftReset :
    (idleE 0x08 0x3).script = [.hostWrite ((idleE 0x08 0x3).platform.regBase + 0x08) 4 0x3]
    ∧ (0x3 : Word) &&& 1 = 1 ∧ (0xFFFFFFFE : Word) &&& 1 = 0 := by decide

theorem witness_StepRunsLatchedCommand :
    (busyWith (latE 1 0 true false 64) memE).phase = .busy ∧ (busyWith (latE 1 0 true false 64) memE).script = []
    ∧ decodeCmd (busyWith (latE 1 0 true false 64) memE).lat.word = .instr (.encp 0 true false 0)
    ∧ ({ busyWith (latE 1 0 true false 64) memE with script := [.engine] } : State).script = [.engine]
    ∧ ({ State.reset with script := [.engine] } : State).phase = .idle := by decide

theorem witness_DecoderRunsRecordsByExec :
    decodeRecord 3 ([1, 2, 3, 4, 8, 7].drop ({ engineStart 3 with cur := 4 } : Engine).cur) = .instr (.f8 7) := by decide

/-- A word whose checks pass, and one whose checks fail. -/
theorem witness_AcceptanceLatchesAndClears : (idleE 0 0).phase = .idle
    ∧ decodeCmd 0x41 = .instr (.encp 0 true false 0)
    ∧ staticCheck (idleE 0 0).platform (latchOf 0x41 (idleE 0 0).regs) = none
    ∧ staticCheck State.reset.platform (latchOf 0x41 State.reset.regs) = some (.dim, 0) := by decide

/-- The static vectors of 95_test_vectors.md section 6.1, one for each error and information word. -/
theorem witness_StaticErrorInformation :
    staticCheck Platform.reset (latE 7 0 false false 64) = some (.op, 7)
    ∧ staticCheck Platform.reset { latE 1 0 true false 64 with rsv := 1 } = some (.rsvd, 0x1041)
    ∧ staticCheck Platform.reset { latE 1 0 true false 64 with width := 0, srcLen := 8 } = some (.dim, 0)
    ∧ staticCheck Platform.reset { latE 1 0 true false 64 with height := 0x10000 } = some (.dim, 1)
    ∧ staticCheck Platform.reset (latE 5 7 false false 64) = some (.arg, 0)
    ∧ staticCheck Platform.reset (latE 6 8 false false 64) = some (.arg, 0)
    ∧ staticCheck Platform.reset { latE 5 6 false false 64 with predY := 3 } = some (.arg, 1)
    ∧ staticCheck Platform.reset { latE 5 0 false false 64 with predX := 3 } = some (.arg, 2)
    ∧ staticCheck Platform.reset { latE 1 0 true false 64 with srcAddr := 0xFFFFFFF0, srcLen := 0x20 } = some (.range, 0)
    ∧ staticCheck Platform.reset { latE 1 0 true false 64 with dstAddr := 0xFFFFFF00, dstCap := 0x200 } = some (.range, 1)
    ∧ staticCheck Platform.reset { latE 1 0 true false 64 with dstAddr := 0x1004 } = some (.overlap, 0)
    ∧ staticCheck Platform.reset { latE 1 0 true false 64 with srcLen := 8 } = some (.src, 9)
    ∧ staticCheck Platform.reset (latE 2 0 false false 8) = some (.dstCap, 9) := by decide

/-- Two conditions at once, worked from the order of 60_exceptions.md R150: RSVD before OP, ARG before RANGE and SRC,
RANGE 0 before RANGE 1, OVERLAP before SRC; and a PRED has no destination to be out of range. -/
theorem witness_StaticErrorInformation_order :
    staticCheck Platform.reset { latE 7 0 false false 64 with rsv := 1 } = some (.rsvd, 0x1007)
    ∧ staticCheck Platform.reset { latE 5 7 false false 64 with srcAddr := 0xFFFFFFF0, srcLen := 0x20 } = some (.arg, 0)
    ∧ staticCheck Platform.reset { latE 6 7 false false 64 with predY := 3, srcLen := 8 } = some (.arg, 1)
    ∧ staticCheck Platform.reset { latE 1 0 true false 64 with
        srcAddr := 0xFFFFFFF0, srcLen := 0x20, dstAddr := 0xFFFFFF00, dstCap := 0x200 } = some (.range, 0)
    ∧ staticCheck Platform.reset { latE 1 0 true false 64 with dstAddr := 0x1004, srcLen := 8 } = some (.overlap, 0)
    ∧ staticCheck Platform.reset { latE 5 6 false false 64 with dstAddr := 0xFFFFFF00, dstCap := 0x200 } = none := by
  decide

/-- The other side of the same boundaries: K = 7 of COST, PRED_X ignored by it, a source that ends at 2^32, an empty
destination inside the source. -/
theorem witness_StaticCheckPassesExactly :
    staticCheck Platform.reset { latE 6 7 false false 64 with predX := 3 } = none
    ∧ staticCheck Platform.reset { latE 1 0 true false 64 with srcAddr := 0xFFFFFFF0, srcLen := 0x10 } = none
    ∧ staticCheck Platform.reset { latE 1 0 true false 0 with dstAddr := 0x1004 } = none := by decide

theorem witness_CmdWriteWhileBusyIsDropped :
    ({ busyWith (latE 1 0 true false 64) memE with script := [.hostWrite 0x0C 4 2] } : State).phase = .busy
    ∧ ({ busyWith (latE 1 0 true false 64) memE with script := [.hostWrite 0x0C 4 2] } : State).script
      = [.hostWrite ((busyWith (latE 1 0 true false 64) memE).platform.regBase + 0x0C) 4 2] := by decide

theorem witness_NopCompletes : (busyWith Latch.reset []).phase = .busy := by decide

/-- Room for exactly the 12 bytes of E's stream, and one byte less. -/
theorem witness_EncpCompletes (cap : Word) (hc : cap = 12 ∨ cap = 11) :
    (busyWith (latE 1 0 true false cap) memE).phase = .busy
    ∧ Memory.wf (busyWith (latE 1 0 true false cap) memE).mem = true
    ∧ admitted Platform.reset .read 0x1000 9 ∧ admitted Platform.reset .write 0x2000 cap.toNat
    ∧ (encodePlane true 3 (sourcePlane (busyWith (latE 1 0 true false cap) memE))).length = 12 := by
  rcases hc with rfl | rfl <;> decide

/-- A decode that gives a plane, one that fails, and one whose first byte is refused. -/
theorem witness_DecpCompletes :
    (busyWith (latStream 1 2 false) (memStream [8, 7])).phase = .busy
    ∧ Memory.wf (memStream [8, 7]) = true ∧ admitted Platform.reset .write 0x3000 3
    ∧ (∃ e, decodeOriented 2 (readSource Platform.reset (memStream [8, 7]) 0x2000) false 1 3 = .done e)
    ∧ decodeOriented 1 (readSource Platform.reset (memStream [8]) 0x2000) false 1 3 = .failed .underrun 1
    ∧ decodeOriented 2 (readSource { Platform.reset with refuses := [⟨0x2000, 1, .read⟩] } [] 0x2000) false 1 3
      = .refusedAt [0] := by
  refine ⟨by decide, by decide, by decide, ⟨_, rfl⟩, by decide, by decide⟩

theorem witness_EnccCompletes : (busyWith (latE 3 0 true false 64) memE).phase = .busy ∧ Memory.wf memE = true
    ∧ admitted Platform.reset .read 0x1000 9 ∧ admitted Platform.reset .write 0x2000 64 := by decide

/-- Both ends of ENCC, for every compressor pair whose component is short enough for a 32-bit length. -/
theorem witness_EnccCompletes_ends (n : Nat) (hn : (encodeChannel true 3 3 planeE).comp.length = n) (h : n < 2 ^ 32)
    (h0 : 0 < n) : (BitVec.ofNat 32 n).toNat = n ∧ (encodeChannel true 3 3 planeE).comp.length ≤ (BitVec.ofNat 32 n).toNat
      ∧ (0 : Word).toNat < (encodeChannel true 3 3 planeE).comp.length := by
  have : (BitVec.ofNat 32 n).toNat = n := by simp; omega
  refine ⟨this, by omega, by rw [hn]; simpa using h0⟩

theorem witness_DeccCompletes :
    (busyWith { latStream 1 2 false with op := 4 } (memStream [8, 7])).phase = .busy
    ∧ Memory.wf (memStream [8, 7]) = true ∧ admitted Platform.reset .read 0x2000 2
    ∧ admitted Platform.reset .write 0x3000 3 := by decide

/-- A component that decodes, for every compressor pair: the one the pair makes of a stream. -/
theorem witness_DeccCompletes_done : ∃ e, decodeChannel (Config.codec.compress [8, 7]) 1 3 false = .done e := by
  unfold decodeChannel
  rw [Config.codec.decompress_compress]
  exact ⟨_, rfl⟩

theorem witness_PredCompletes : (busyWith { latE 5 6 false false 64 with predY := 2, predX := 2 } memE).phase = .busy
    ∧ (6 : BitVec 4).toNat ≤ 6 ∧ (2 : Word).toNat < (3 : Word).toNat ∧ admitted Platform.reset .read 0x1000 9 := by decide

theorem witness_CostCompletes : (busyWith { latE 6 7 false false 64 with predY := 2 } memE).phase = .busy
    ∧ (7 : BitVec 4).toNat ≤ 7 ∧ (2 : Word).toNat < (3 : Word).toNat ∧ admitted Platform.reset .read 0x1000 9 := by decide

/-- The last byte before the destination and the first after it, in a busy state, and an idle state. -/
theorem witness_SoftResetCompletes : Memory.wf (busyWith (latE 1 0 true false 64) memE).mem = true
    ∧ inRegion (busyWith (latE 1 0 true false 64) memE).lat.dstRegion 0x1FFF = false
    ∧ inRegion (busyWith (latE 1 0 true false 64) memE).lat.dstRegion 0x2040 = false
    ∧ State.reset.phase = .idle := by decide

theorem witness_IllegalFilterIdEndsDecode : (engineStart 2).cur < 3 ∧ (3 : Nat) < 2 ^ 32
    ∧ readList [9, 0, 0] (engineStart 2).cur = some 9 ∧ 9 ≤ (9 : Byte).toNat := by decide

/-- No id byte; a value byte missing; one residual of two missing. -/
theorem witness_TruncatedStreamEndsDecode : (0 : Nat) ≤ (engineStart 3).cur
    ∧ readList [8] (engineStart 3).cur = some 8 ∧ (1 : Nat) < (engineStart 3).cur + 2
    ∧ readList [1, 5] (engineStart 2).cur = some 1 ∧ (2 : Nat) < (engineStart 2).cur + (1 + 2) := by decide

/-- The refused range of section 6.2. -/
def refusing : Platform := { Platform.reset with refuses := [⟨0x80000000, 0x1000, .read⟩] }

/-- The reads: a refused byte among those of each command. -/
theorem witness_RefusedReadIsBusError :
    ({ busyWith { latE 1 0 true false 64 with srcAddr := 0x80000000 } [] with platform := refusing } : State).phase = .busy
    ∧ Memory.wf [] = true ∧ (6 : BitVec 4).toNat ≤ 6 ∧ (7 : BitVec 4).toNat ≤ 7
    ∧ refusedOf refusing .read (addrRange 0x80000000 9) ≠ []
    ∧ refusedOf refusing .read (neighbourAddrs 0x80000000 3 2 2) ≠ []
    ∧ refusedOf refusing .read (costAddrs 0x80000000 3 2) ≠ [] := by decide

/-- A platform that refuses writes to the first byte of each destination the tests use. -/
def refusingWrites : Platform := { Platform.reset with refuses := [⟨0x2000, 1, .write⟩, ⟨0x3000, 1, .write⟩] }

/-- The writes of ENCP and DECP: the plane readable, the output of 12 bytes within the destination, its first byte
refused; a stream that decodes, the plane's first byte refused. -/
theorem witness_RefusedReadIsBusError_writes :
    admitted refusingWrites .read 0x1000 9 ∧ admitted refusingWrites .read 0x2000 2
    ∧ (encodePlane true 3 (sourcePlane (busyWith (latE 1 0 true false 64) memE))).length = 12
    ∧ (12 : Nat) ≤ (64 : Word).toNat ∧ refusedOf refusingWrites .write (addrRange 0x2000 12) ≠ []
    ∧ (∃ e, decodeOriented 2 (readSource refusingWrites (memStream [8, 7]) 0x2000) false 1 3 = .done e)
    ∧ refusedOf refusingWrites .write (addrRange 0x3000 3) ≠ [] := by
  refine ⟨by decide, by decide, by decide, by decide, by decide, ⟨_, rfl⟩, by decide⟩

/-- The write of ENCC: any component that is not empty has its first byte refused. -/
theorem witness_RefusedReadIsBusError_encc (n : Nat) (h : 0 < n) :
    refusedOf refusingWrites .write (addrRange 0x2000 n) ≠ [] := by
  intro hc
  have := refusedOf_eq_nil.mp hc 0x2000 (mem_addrRange.mpr (by omega))
  exact absurd this (by decide)

/-- Whatever the compressor, of two planes of one sample at least one has a component that is not empty. -/
theorem witness_RefusedReadIsBusError_component :
    0 < (encodeChannel true 1 1 [[1]]).comp.length ∨ 0 < (encodeChannel true 1 1 [[2]]).comp.length := by
  have h1 : (encodeChannel true 1 1 [[1]]).comp = Config.codec.compress [8, 1] := by
    show (chooseTrial (Config.codec.compress [8, 1]) (Config.codec.compress [8, 1])).comp = _
    simp [chooseTrial]
  have h2 : (encodeChannel true 1 1 [[2]]).comp = Config.codec.compress [8, 2] := by
    show (chooseTrial (Config.codec.compress [8, 2]) (Config.codec.compress [8, 2])).comp = _
    simp [chooseTrial]
  rw [h1, h2]
  by_contra hc
  have e1 : Config.codec.compress [8, 1] = [] := List.length_eq_zero_iff.mp (by omega)
  have e2 : Config.codec.compress [8, 2] = [] := List.length_eq_zero_iff.mp (by omega)
  have d1 := Config.codec.decompress_compress [8, 1]
  have d2 := Config.codec.decompress_compress [8, 2]
  rw [e1] at d1
  rw [e2, d1] at d2
  exact absurd d2 (by decide)

/-- A DECP in progress whose stream begins with an illegal id. -/
def busyBad : State := busyWith (latStream 1 4 false) (memStream [9, 1, 1, 1])

theorem witness_ErrorEndIsPrecise : busyBad.Inv ∧ busyBad.phase = .busy ∧ busyBad.script = []
    ∧ ∃ t, step busyBad = .next t ∧ t.status.err = true :=
  ⟨⟨by decide, by decide, by decide, by decide, by decide, by decide, by decide, by decide, by decide, by decide,
    by decide⟩, by decide, by decide, _, rfl, by decide⟩

theorem witness_StepKeepsInvariant : busyBad.Inv ∧ ∃ t, step busyBad = .next t :=
  ⟨witness_ErrorEndIsPrecise.1, _, rfl⟩

theorem witness_InvariantExcludesFaults : busyBad.Inv := witness_ErrorEndIsPrecise.1

theorem witness_BusyCommandEnds : busyBad.Inv ∧ busyBad.phase = .busy ∧ busyBad.script = [] :=
  ⟨witness_ErrorEndIsPrecise.1, by decide, by decide⟩

/-- An ENCP in progress for E. -/
def busyEncp : State := busyWith (latE 1 0 true false 64) memE

theorem busyEncp_inv : busyEncp.Inv :=
  ⟨by decide, by decide, by decide, by decide, by decide, by decide, by decide, by decide, by decide, by decide,
    by decide⟩

/-- The engine's store, and the host's. -/
theorem witness_OnlyTheseStepsChangeMemory : busyEncp.Inv
    ∧ (∃ t, step busyEncp = .next t ∧ Memory.read t.mem 0x2000 ≠ Memory.read busyEncp.mem 0x2000)
    ∧ ∃ t, step { busyEncp with script := [.memWrite 5 1] } = .next t ∧ Memory.read t.mem 5 ≠ Memory.read busyEncp.mem 5 :=
  ⟨busyEncp_inv, ⟨_, rfl, by decide⟩, _, rfl, by decide⟩

theorem witness_HazardIsSticky : (∃ t, step { State.reset with hazard := true } = .next t)
    ∧ ({ State.reset with hazard := true } : State).hazard = true := ⟨⟨_, rfl⟩, rfl⟩

/-- Source and destination of a running command at their last and first byte, and the first byte after each; and its
engine's turn with a host store behind it. -/
theorem witness_StoreToBusyRegionIsHazard : busyEncp.Inv ∧ busyEncp.phase = .busy ∧ busyEncp.hazard = false
    ∧ inRegion busyEncp.lat.srcRegion 0x1008 = true ∧ inRegion busyEncp.lat.dstRegion 0x2000 = true
    ∧ busyEncp.lat.op ≠ 0 ∧ busyEncp.lat.hasDst = true
    ∧ (∀ g ∈ busyEncp.guards, inRegion g.src 0x1009 = false ∧ inRegion g.dst 0x1009 = false)
    ∧ (∀ g ∈ busyEncp.guards, inRegion g.src 0x2040 = false ∧ inRegion g.dst 0x2040 = false)
    ∧ ({ busyEncp with script := [.engine, .memWrite 0x1008 1] } : State).script = [.engine, .memWrite 0x1008 1] :=
  ⟨busyEncp_inv, by decide, by decide, by decide, by decide, by decide, by decide, by decide, by decide, rfl⟩

/-- An ENCP that has ended, its end not yet observed. -/
def idleGuarded : State := { State.reset with guards := [guardOf busyEncp.lat], script := [.memWrite 0x1008 1] }

/-- The same while IDLE: the guard still covers the last byte of the source, and one step keeps it. -/
theorem witness_StoreToBusyRegionIsHazard_idle : idleGuarded.Inv ∧ idleGuarded.phase = .idle
    ∧ idleGuarded.hazard = false ∧ (∃ g ∈ idleGuarded.guards, inRegion g.src 0x1008 = true)
    ∧ ∃ t, step idleGuarded = .next t ∧ guardOf busyEncp.lat ∈ t.guards ∧ t.hazard = true :=
  ⟨⟨by decide, by decide, by decide, by decide, by decide, by decide, by decide, by decide, by decide, by decide,
    by decide⟩, by decide, by decide, by decide, _, rfl, by decide, by decide⟩

theorem witness_HistoryGivesPlaneNeighbours : isPlane planeE 3 3 ∧ (2 : Nat) < 3 := ⟨⟨by decide, by decide⟩, by decide⟩

theorem witness_PredictionRanges : Pred.knight ≠ .linear := by decide

/-- Row 0 of E: a tie of ids 1, 4 and 5. -/
theorem witness_LowestIdOfLeastCost : 2 < ([10, 20, 30] : List Byte).length
    ∧ ([10, 20, 30] : List Byte).getD 2 0 ≠ ([10, 20, 30] : List Byte).getD 0 0
    ∧ [60, 30, 60, 45, 30, 30, 60, 60] = (candidateRows [10, 20, 30] (zeroRow 3) (zeroRow 3)).map absSum := by decide

theorem witness_ConstantRowIsEscapeEight : (1 : Nat) ≤ 1 := by decide

/-- The greatest dimensions the platform of reset accepts are among those of the last clause. -/
theorem witness_StreamSizeBounds : isPlane planeE 3 3 ∧ (1 : Nat) ≤ 3 ∧ 3 ≤ maxDim Platform.reset
    ∧ 3 ≤ maxDim { Platform.reset with maxDimIndex := 2 } := ⟨⟨by decide, by decide⟩, by decide, by decide, by decide⟩

theorem witness_ScanlineRoundTrip : isPlane planeE 3 3 ∧ isPlane [[42]] 1 1 ∧ (1 : Nat) ≤ 1 :=
  ⟨⟨by decide, by decide⟩, ⟨by decide, by decide⟩, by decide⟩

theorem witness_TransposeSwapsAndInverts : isPlane [[1, 2, 3], [4, 5, 6]] 2 3
    ∧ transpose 3 [[1, 2, 3], [4, 5, 6]] = [[1, 4], [2, 5], [3, 6]] := ⟨⟨by decide, by decide⟩, by decide⟩

/-- A plane equal to its own transpose; and one of the two length clauses holds of any two trials. -/
theorem witness_SmallerTrialWinsTiesRowMajor : transpose 1 [[42]] = ([[42]] : Plane)
    ∧ ∀ c0 c1 : List Byte, c1.length < c0.length ∨ c0.length ≤ c1.length :=
  ⟨by decide, fun _ _ => Nat.lt_or_ge _ _⟩

theorem witness_ChannelRoundTrip : isPlane planeE 3 3 ∧ (1 : Nat) ≤ 3 := ⟨⟨by decide, by decide⟩, by decide⟩

/-- A writable register, a read-only one and the last reserved offset. -/
theorem witness_RegisterWriteStores (off : Nat) (h : off = 0x18 ∨ off = 0x50 ∨ off = 0x5C) : off < 0x60 ∧ off % 4 = 0
    ∧ off ≠ 0x08 ∧ off ≠ 0x0C ∧ off ≠ 0x10
    ∧ (idleE off 7).script = [.hostWrite ((idleE off 7).platform.regBase + off) 4 7] := by
  rcases h with rfl | rfl | rfl <;> decide

theorem witness_StatusWriteClearsOnes :
    (idleE 0x10 0xE).script = [.hostWrite ((idleE 0x10 0xE).platform.regBase + 0x10) 4 0xE] := by decide

/-- The last register and the last reserved offset. -/
theorem witness_RegisterReadHasNoSideEffect (off : Nat) (h : off = 0x50 ∨ off = 0x5C) : off < 0x60 ∧ off % 4 = 0
    ∧ ({ State.reset with script := [.hostRead off 4] } : State).script
      = [.hostRead (State.reset.platform.regBase + off) 4] ∧ regOffset .result = 0x50 := by
  rcases h with rfl | rfl <;> decide

/-- No register stands at offset 0x5C. -/
theorem witness_RegisterReadHasNoSideEffect_reserved : ∀ r, regOffset r ≠ 0x5C := by
  intro r
  cases r <;> decide

/-- A byte access at the last byte, a misaligned word, and a double word at the last register. -/
theorem witness_UndefinedRegisterAccessRefused (off size : Nat)
    (h : off = 0x5F ∧ size = 1 ∨ off = 0x0E ∧ size = 4 ∨ off = 0x5C ∧ size = 8) :
    off < 0x60 ∧ 0 < size ∧ (size ≠ 4 ∨ off % 4 ≠ 0)
    ∧ ({ State.reset with script := [.hostRead off size] } : State).script
      = [.hostRead (State.reset.platform.regBase + off) size] := by
  rcases h with ⟨rfl, rfl⟩ | ⟨rfl, rfl⟩ | ⟨rfl, rfl⟩ <;> decide

end Sys2Proof.Tests
end

section
/-! SUPPORT. The invariant over a step: what an act that runs no command keeps, and the three that do. -/

namespace Sys2Proof.Machine

/-- The registers that speak of a command, CMD, ERR_INFO and the five results: no write but one to CMD or CTRL stores
to them (10_state.md R17). -/
def Regs.commandRegs (r : Regs) : Word × Word × Word × Word × Word × Word × Word :=
  (r.cmd, r.errInfo, r.outLen, r.inUsed, r.lenRm, r.lenTr, r.result)

/-- `t` has the command of `s`: the phase, the latch, the platform, the registers of the command and the error code as
before, no flag of the end newly set, and while BUSY no guard dropped. -/
structure KeepsCommand (s t : State) : Prop where
  memWf : Memory.wf s.mem = true → Memory.wf t.mem = true
  phase : t.phase = s.phase
  lat : t.lat = s.lat
  platform : t.platform = s.platform
  commandRegs : t.regs.commandRegs = s.regs.commandRegs
  errcode : t.status.errcode = s.status.errcode
  done : s.status.done = false → t.status.done = false
  err : s.status.err = false → t.status.err = false
  guards : s.phase = .busy → ∀ g ∈ s.guards, g ∈ t.guards

theorem KeepsCommand.inv {s t : State} (k : KeepsCommand s t) (h : s.Inv) : t.Inv := by
  obtain ⟨hcmd, hinfo, hout, hin, hrm, htr, hres⟩ :
      t.regs.cmd = s.regs.cmd ∧ t.regs.errInfo = s.regs.errInfo ∧ t.regs.outLen = s.regs.outLen
        ∧ t.regs.inUsed = s.regs.inUsed ∧ t.regs.lenRm = s.regs.lenRm ∧ t.regs.lenTr = s.regs.lenTr
        ∧ t.regs.result = s.regs.result := by simpa [Regs.commandRegs] using k.commandRegs
  have hdone : t.status.done = true → s.status.done = true := by
    simpa using mt k.done
  have herr : t.status.err = true → s.status.err = true := by
    simpa using mt k.err
  constructor
  case memWf => exact k.memWf h.memWf
  case doneErr => exact fun hd => k.err (h.doneErr (hdone hd))
  case busyFlags => rw [k.phase]; exact fun hp => ⟨k.done (h.busyFlags hp).1, k.err (h.busyFlags hp).2⟩
  case busyNoError => rw [k.phase, k.errcode, hinfo]; exact h.busyNoError
  case busyChecked => rw [k.phase, k.platform, k.lat]; exact h.busyChecked
  case busyCmd => rw [k.phase, k.lat, hcmd]; exact h.busyCmd
  case busyGuard => rw [k.phase, k.lat]; exact fun hp => k.guards hp _ (h.busyGuard hp)
  case busyResults => rw [k.phase, hout, hin, hrm, htr, hres]; exact h.busyResults
  case doneCode => rw [k.errcode, hinfo]; exact fun hd => h.doneCode (hdone hd)
  case errCode => rw [k.errcode]; exact fun he => h.errCode (herr he)
  case errResults => rw [k.errcode, hout, hin, hrm, htr, hres]; exact h.errResults

/-- An act that leaves the registers and the flags alone keeps the command, and with it the invariant. -/
theorem State.Inv.of_same {s t : State} (h : s.Inv) (hm : Memory.wf s.mem = true → Memory.wf t.mem = true)
    (hg : s.phase = .busy → ∀ g ∈ s.guards, g ∈ t.guards)
    (hp : t.phase = s.phase := by simp) (hl : t.lat = s.lat := by simp) (hpl : t.platform = s.platform := by simp)
    (hr : t.regs = s.regs := by simp) (hst : t.status = s.status := by simp) : t.Inv :=
  KeepsCommand.inv ⟨hm, hp, hl, hpl, by rw [hr], by rw [hst], by rw [hst]; exact id, by rw [hst]; exact id, hg⟩ h

@[simp] theorem writeReg_commandRegs (r : RegName) (v : Word) (s : State) :
    (writeReg r v s).regs.commandRegs = s.regs.commandRegs := by
  cases r <;> rfl

/-- A register write touches the flags only by clearing them (10_state.md R23). -/
theorem writeReg_status (r : RegName) (v : Word) (s : State) :
    (writeReg r v s).status = s.status ∨ (writeReg r v s).status = statusClear v s.status := by
  cases r
  case status => exact .inr rfl
  all_goals exact .inl rfl

theorem keepsCommand_writeReg (r : RegName) (v : Word) (s : State) : KeepsCommand s (writeReg r v s) := by
  have hst := writeReg_status r v s
  constructor
  case errcode => rcases hst with h | h <;> simp [h, statusClear]
  case done => rcases hst with h | h <;> simp +contextual [h, statusClear]
  case err => rcases hst with h | h <;> simp +contextual [h, statusClear]
  all_goals simp

theorem argCheck_code {l : Latch} {code : ErrCode} {info : Word} (h : argCheck l = some (code, info)) :
    code ≠ .none := by
  unfold argCheck at h
  repeat' split at h
  all_goals grind

theorem regionCheck_code {l : Latch} {code : ErrCode} {info : Word} (h : regionCheck l = some (code, info)) :
    code ≠ .none := by
  unfold regionCheck at h
  repeat' split at h
  all_goals grind

/-- A static error has a code: every row of the checks names one (60_exceptions.md R148, R150). -/
theorem staticCheck_code {p : Platform} {l : Latch} {code : ErrCode} {info : Word}
    (h : staticCheck p l = some (code, info)) : code ≠ .none := by
  unfold staticCheck at h
  repeat' split at h
  case h_1 ha => exact argCheck_code (ha.trans h)
  case h_2 => exact regionCheck_code h
  all_goals grind

theorem latchOf_word (v : Word) (r : Regs) : (latchOf v r).word = v := cmdWord_fields v

/-- In an IDLE state only the memory and the agreement of flags, code and results are asked for. -/
theorem State.Inv.of_idle {t : State} (hp : t.phase = .idle) (hm : Memory.wf t.mem = true)
    (hde : t.status.done = true → t.status.err = false)
    (hdc : t.status.done = true → t.status.errcode = .none ∧ t.regs.errInfo = 0)
    (hec : t.status.err = true → t.status.errcode ≠ .none)
    (her : t.status.errcode ≠ .none → t.regs.outLen = 0 ∧ t.regs.inUsed = 0 ∧ t.regs.lenRm = 0 ∧ t.regs.lenTr = 0
      ∧ t.regs.result = 0) : t.Inv := by
  have hnb : t.phase ≠ .busy := by simp [hp]
  exact ⟨hm, hde, (absurd · hnb), (absurd · hnb), (absurd · hnb), (absurd · hnb), (absurd · hnb), (absurd · hnb),
    hdc, hec, her⟩

/-- Acceptance meets the invariant afresh: a command in progress with its checks passed, or the static error
(43_commands.md R133). -/
theorem accept_inv {s : State} (h : Memory.wf s.mem = true) (v : Word) : (accept v s).Inv := by
  obtain ⟨hlat, hmem, -, hplat, -, -, hguards, hdone, -, hregs, hbusy, herr⟩ := accept_spec v s
  have hres : (accept v s).regs.outLen = 0 ∧ (accept v s).regs.inUsed = 0 ∧ (accept v s).regs.lenRm = 0
      ∧ (accept v s).regs.lenTr = 0 ∧ (accept v s).regs.result = 0 := by rw [hregs]; simp
  have hcmd : (accept v s).regs.cmd = v := by rw [hregs]
  have hnd : (accept v s).status.done ≠ true := by simp [hdone]
  have hm : Memory.wf (accept v s).mem = true := by rw [hmem]; exact h
  cases hc : staticCheck s.platform (latchOf v s.regs) with
  | none =>
    obtain ⟨-, he, hcode, hinfo⟩ := hbusy hc
    exact {
      memWf := hm
      doneErr := (absurd · hnd)
      busyFlags := fun _ => ⟨hdone, he⟩
      busyNoError := fun _ => ⟨hcode, hinfo⟩
      busyChecked := fun _ => by rw [hplat, hlat, hc]
      busyCmd := fun _ => by rw [hcmd, hlat, latchOf_word]
      busyGuard := fun _ => by rw [hguards, hlat]; exact List.mem_cons_self
      busyResults := fun _ => hres
      doneCode := (absurd · hnd)
      errCode := fun he' => absurd he' (by simp [he])
      errResults := fun _ => hres }
  | some e =>
    obtain ⟨hidle, -, hcode, -⟩ := herr e.1 e.2 hc
    exact .of_idle hidle hm (absurd · hnd) (absurd · hnd) (fun _ => by rw [hcode]; exact staticCheck_code hc)
      fun _ => hres

/-- The end of a command meets the invariant: while BUSY the flags were clear, no code held and the results 0, so one
of DONE and ERR now stands alone (43_commands.md R134, 60_exceptions.md R149). -/
theorem Ends.inv {s t : State} (hE : Ends s t) (h : s.Inv) (hp : s.phase = .busy) : t.Inv := by
  obtain ⟨hnd, hne⟩ := h.busyFlags hp
  obtain ⟨hcode, hinfo⟩ := h.busyNoError hp
  rcases hE.how with ⟨hst, hi, -⟩ | ⟨code, info, hc, hst, hregs⟩
  · have hcode' : t.status.errcode = .none := by rw [hst]; exact hcode
    have hne' : t.status.err = false := by rw [hst]; exact hne
    exact .of_idle hE.idle (hE.memWf h.memWf) (fun _ => hne') (fun _ => ⟨hcode', hi.trans hinfo⟩)
      (fun he => absurd he (by simp [hne'])) (absurd hcode')
  · have hnd' : t.status.done ≠ true := by simp [hst, hnd]
    exact .of_idle hE.idle (hE.memWf h.memWf) (absurd · hnd') (absurd · hnd') (fun _ => by rw [hst]; exact hc)
      fun _ => by rw [hregs]; exact h.busyResults hp

/-- Abandoning a command keeps the memory's canonical form. -/
theorem wf_abandon {s : State} (h : Memory.wf s.mem = true) : Memory.wf (abandon s).mem = true := by
  unfold abandon
  split
  · exact h
  · split
    · exact Memory.wf_scramble h _ _ _
    · exact h

/-- The reset registers and flags meet what is asked of an IDLE state. -/
theorem inv_of_reset {t : State} (hp : t.phase = .idle) (hm : Memory.wf t.mem = true) (hr : t.regs = Regs.reset)
    (hst : t.status = Status.reset) : t.Inv := by
  apply State.Inv.of_idle hp hm <;> simp [hr, hst, Regs.reset, Status.reset]

theorem softReset_inv {s : State} (h : Memory.wf s.mem = true) : (softReset s).Inv :=
  inv_of_reset rfl (wf_abandon h) rfl rfl

/-- The script is no part of the invariant. -/
theorem State.Inv.setScript {s : State} (h : s.Inv) (es : List Event) : ({ s with script := es } : State).Inv :=
  ⟨h.memWf, h.doneErr, h.busyFlags, h.busyNoError, h.busyChecked, h.busyCmd, h.busyGuard, h.busyResults, h.doneCode,
    h.errCode, h.errResults⟩

/-- Whatever a step does keeps the invariant: it accepts, ends or abandons a command, or keeps the one there is. -/
theorem Took.inv {o : Option Event} {s t : State} (hT : Took o s t) (h : s.Inv) : t.Inv := by
  have hg : s.phase = .busy → ∀ g ∈ s.guards, g ∈ t.guards := fun hb g hg => by
    rcases hT.guards hg with hg' | ⟨hi, -⟩ | ⟨hi, -⟩
    · exact hg'
    · simp [hb] at hi
    · simp [hb] at hi
  cases hT with
  | stayed => exact h
  | accepted v _ => exact accept_inv h.memWf v
  | ended _ hp hE => exact hE.inv h hp
  | reset => exact softReset_inv h.memWf
  | dropped _ => exact KeepsCommand.inv (s := s) ⟨id, rfl, rfl, rfl, rfl, rfl, id, id, hg⟩ h
  | wrote r v => exact (keepsCommand_writeReg r v s).inv h
  | hostRead off _ => exact h.of_same (by simp) hg
  | memWrote a b _ => exact h.of_same (Memory.wf_write · _ _) hg
  | memRead a => exact h.of_same (by simp) hg
  | sampled _ => exact h.of_same (by simp) hg
  | gated _ => exact h.of_same (t := markHazard true s) id hg
  | remapped base len _ => exact h.of_same (Memory.wf_scramble · _ _ _) hg

/-- Settles O36, by the cases of what a step can do. -/
theorem stepKeepsInvariant : Obligations.StepKeepsInvariant := by
  intro s t h hst
  rcases step_spec h.busyChecked with ⟨r, hr⟩ | ⟨u, hu, hcases⟩
  · simp [hr] at hst
  · obtain rfl : u = t := by simpa [hu] using hst
    rcases hcases with ⟨-, hT, -⟩ | ⟨e, es, -, hT⟩
    · exact hT.inv h
    · exact hT.inv (h.setScript es)

/-- Settles O35: the registers and flags of reset, over an empty memory. -/
theorem resetMeetsInvariant : Obligations.ResetMeetsInvariant := inv_of_reset rfl rfl rfl rfl

end Sys2Proof.Machine
end

section
/-! SUPPORT. The bits of the STATUS word, and the read values of the window at reset. -/

namespace Sys2Proof.Machine

/-- Each bit of the STATUS word is a bit of one of its fields (10_state.md R23). -/
theorem getLsbD_statusWord (s : State) (i : Nat) :
    (statusWord s).getLsbD i
      = if i < 1 then (BitVec.ofBool (busyBit s)).getLsbD i
        else if i - 1 < 1 then (BitVec.ofBool s.status.done).getLsbD (i - 1)
        else if i - 1 - 1 < 1 then (BitVec.ofBool s.status.err).getLsbD (i - 1 - 1)
        else if i - 1 - 1 - 1 < 1 then (BitVec.ofBool s.status.cmdOvr).getLsbD (i - 1 - 1 - 1)
        else if i - 1 - 1 - 1 - 1 < 4 then (0#4).getLsbD (i - 1 - 1 - 1 - 1)
        else if i - 1 - 1 - 1 - 1 - 4 < 8 then (errByte s.status.errcode).getLsbD (i - 1 - 1 - 1 - 1 - 4)
        else (0#16).getLsbD (i - 1 - 1 - 1 - 1 - 4 - 8) := by
  show @BitVec.getLsbD (16 + 8 + 4 + 1 + 1 + 1 + 1)
    (0#16 ++ errByte s.status.errcode ++ 0#4 ++ BitVec.ofBool s.status.cmdOvr ++ BitVec.ofBool s.status.err
      ++ BitVec.ofBool s.status.done ++ BitVec.ofBool (busyBit s)) i = _
  simp only [BitVec.getLsbD_append]

@[simp] theorem statusWord_busy (s : State) : (statusWord s)[0] = busyBit s := by
  rw [← BitVec.getLsbD_eq_getElem, getLsbD_statusWord]; simp

@[simp] theorem statusWord_done (s : State) : (statusWord s)[1] = s.status.done := by
  rw [← BitVec.getLsbD_eq_getElem, getLsbD_statusWord]; simp

@[simp] theorem statusWord_err (s : State) : (statusWord s)[2] = s.status.err := by
  rw [← BitVec.getLsbD_eq_getElem, getLsbD_statusWord]; simp

@[simp] theorem statusWord_cmdOvr (s : State) : (statusWord s)[3] = s.status.cmdOvr := by
  rw [← BitVec.getLsbD_eq_getElem, getLsbD_statusWord]; simp

/-- From bit 4 on the word holds ERRCODE in bits 15:8 and nothing else. -/
theorem statusWord_of_ge {i : Nat} (h : 4 ≤ i) (s : State) :
    (statusWord s).getLsbD i = (decide (8 ≤ i) && (errByte s.status.errcode).getLsbD (i - 8)) := by
  rw [getLsbD_statusWord, if_neg (by omega), if_neg (by omega), if_neg (by omega), if_neg (by omega)]
  have e : i - 1 - 1 - 1 - 1 - 4 = i - 8 := by omega
  by_cases h8 : 8 ≤ i
  · by_cases h16 : i < 16
    · rw [if_neg (by omega), if_pos (by omega), e]; simp [h8]
    · rw [if_neg (by omega), if_neg (by omega)]; simp [BitVec.getLsbD_of_ge, show 8 ≤ i - 8 by omega]
  · rw [if_pos (by omega)]; simp [h8]

theorem busyBit_eq (s : State) : busyBit s = decide (s.phase = .busy) := by
  unfold busyBit
  cases s.phase <;> rfl

/-- Settles O58: the bits of the word, field by field, and the table of the codes. -/
theorem statusWordLayout : Obligations.StatusWordLayout := by
  refine ⟨fun s => ⟨by simp [busyBit_eq], by simp, by simp, by simp, ?_, ?_, ?_⟩, rfl, rfl, rfl, rfl, rfl,
    rfl, rfl, rfl, rfl, rfl, rfl, rfl, rfl⟩
  · apply BitVec.eq_of_getLsbD_eq
    intro i hi
    have h : ¬ 8 ≤ 4 + i := by omega
    simp [BitVec.getLsbD_extractLsb', statusWord_of_ge, h]
  · apply BitVec.eq_of_getLsbD_eq
    intro i hi
    simp [statusWord_of_ge (show 4 ≤ 8 + i by omega), hi]
  · apply BitVec.eq_of_getLsbD_eq
    intro i hi
    simp [BitVec.getLsbD_extractLsb', statusWord_of_ge (show 4 ≤ 16 + i by omega),
      BitVec.getLsbD_of_ge, show 8 ≤ 16 + i - 8 by omega]

/-- Settles O59: DONE and ERR at bits 1 and 2 of STATUS, their enables at bits 0 and 1 of IRQ_EN. -/
theorem irqIsEnabledDoneOrErr : Obligations.IrqIsEnabledDoneOrErr :=
  ⟨fun s => by simp [irq, doneIe, errIe, readReg], rfl⟩

/-- Settles O54, register by register. -/
theorem resetRegisterValues : Obligations.ResetRegisterValues := by
  refine ⟨rfl, rfl, fun r hid hver => ?_, rfl, rfl, rfl⟩
  cases r
  case id => exact absurd rfl hid
  case version => exact absurd rfl hver
  case status => decide
  all_goals rfl

/-- The mask 0xE has bits 1 to 3 only. -/
theorem getLsbD_w1cMask {i : Nat} (h : i < 32) : (0x0000000E : Word).getLsbD i = decide (1 ≤ i ∧ i < 4) := by
  revert i
  decide

/-- Clearing DONE, ERR and CMD_OVR where `v` has a 1 clears those bits of the word and no other (10_state.md R23). -/
theorem statusWord_acknowledge (v : Word) (s : State) :
    statusWord (acknowledge v s) = statusWord s &&& ~~~(v &&& 0x0000000E) := by
  apply BitVec.eq_of_getLsbD_eq
  intro i hi
  rw [BitVec.getLsbD_and, BitVec.getLsbD_not, BitVec.getLsbD_and, getLsbD_w1cMask hi]
  by_cases h4 : 4 ≤ i
  · rw [statusWord_of_ge h4, statusWord_of_ge h4]
    simp [statusClear, hi, show ¬ i < 4 by omega]
  · obtain rfl | rfl | rfl | rfl : i = 0 ∨ i = 1 ∨ i = 2 ∨ i = 3 := by omega
    · simp [busyBit]
    · simp [statusClear]
    · simp [statusClear]
    · simp [statusClear]

/-- Settles O56: the step is `acknowledge`. -/
theorem statusWriteClearsOnes : Obligations.StatusWriteClearsOnes := by
  intro s es v hs
  refine ⟨acknowledge v { s with script := es }, step_hostWrite (by decide) (by decide) hs, rfl, rfl, rfl, rfl,
    statusWord_acknowledge v { s with script := es }, rfl, rfl, rfl, rfl, rfl, rfl⟩

end Sys2Proof.Machine
end

section
/-! SUPPORT. What every meaning and every event keeps of the platform and of the hazard mark, from any state: here the
invariant is not asked for, so a completion is followed down its own branches. -/

namespace Sys2Proof.Machine

/-- `t` has the platform and the hazard mark of `s`. -/
structure SameMark (s t : State) : Prop where
  platform : t.platform = s.platform
  hazard : t.hazard = s.hazard

theorem SameMark.trans {s t u : State} (h : SameMark s t) (k : SameMark t u) : SameMark s u :=
  ⟨k.platform.trans h.platform, k.hazard.trans h.hazard⟩

theorem sameMark_accept (v : Word) (s : State) : SameMark s (accept v s) := by
  obtain ⟨-, -, hh, hp, -⟩ := accept_spec v s
  exact ⟨hp, hh⟩

/-- Storing an output keeps what its continuation keeps. -/
theorem sameMark_storeOutput {bs : List Byte} {done : State → State} {s u : State} (h : SameMark s u)
    (hd : ∀ w, SameMark w (done w)) : SameMark s (storeOutput bs done u) := by
  rcases storeOutput_cases bs done u with ⟨-, e⟩ | ⟨as, -, -, e⟩ <;> rw [e]
  · exact h.trans ⟨(hd _).platform, (hd _).hazard⟩
  · exact h.trans ⟨rfl, rfl⟩

theorem sameMark_storeEncoded {bs : List Byte} {done : State → State} {s u : State} (h : SameMark s u)
    (hd : ∀ w, SameMark w (done w)) : SameMark s (storeEncoded bs done u) := by
  unfold storeEncoded
  split
  · exact h.trans ⟨rfl, rfl⟩
  · exact sameMark_storeOutput h hd

theorem sameMark_finishDecode (o : Bool) (d : Decoding) (s : State) : SameMark s (finishDecode o d s) := by
  cases d with
  | done e =>
    simp only [finishDecode, storePlane]
    exact sameMark_storeOutput ⟨rfl, rfl⟩ fun _ => ⟨rfl, rfl⟩
  | failed code info => exact ⟨rfl, rfl⟩
  | refusedAt os => exact ⟨rfl, rfl⟩

theorem sameMark_completeEncp (fset orient : Bool) (s : State) : SameMark s (completeEncp fset orient s) := by
  unfold completeEncp
  split
  · exact sameMark_storeEncoded ⟨rfl, rfl⟩ fun _ => ⟨rfl, rfl⟩
  · exact ⟨rfl, rfl⟩

theorem sameMark_completeEncc (chan : BitVec 2) (fset : Bool) (s : State) : SameMark s (completeEncc chan fset s) := by
  unfold completeEncc
  split
  · exact sameMark_storeEncoded ⟨rfl, rfl⟩ fun _ => ⟨rfl, rfl⟩
  · exact ⟨rfl, rfl⟩

theorem sameMark_completeDecc (s : State) : SameMark s (completeDecc s) := by
  unfold completeDecc
  split
  · exact sameMark_finishDecode _ _ s
  · exact ⟨rfl, rfl⟩

theorem sameMark_completePred (p : Pred) (s : State) : SameMark s (completePred p s) := by
  unfold completePred
  split <;> exact ⟨rfl, rfl⟩

theorem sameMark_completeCost (r : List Byte) (s : State) : SameMark s (completeCost r s) := by
  unfold completeCost
  split <;> exact ⟨rfl, rfl⟩

/-- The completion step exec gives a command in a BUSY state, where it gives one. -/
theorem sameMark_exec_busy {i : Instr} {s t : State} (hp : s.phase = .busy) (h : exec i s = .next t) :
    SameMark s t := by
  cases i with
  | nop chan fset orient k =>
    simp only [exec, execNop, hp, Host.Outcome.next.injEq] at h
    exact h ▸ ⟨rfl, rfl⟩
  | encp chan fset orient k =>
    simp only [exec, execEncp, hp, Host.Outcome.next.injEq] at h
    exact h ▸ sameMark_completeEncp fset orient s
  | decp chan fset orient k =>
    simp only [exec, execDecp, hp, Host.Outcome.next.injEq] at h
    exact h ▸ sameMark_finishDecode _ _ s
  | encc chan fset orient k =>
    simp only [exec, execEncc, hp, Host.Outcome.next.injEq] at h
    exact h ▸ sameMark_completeEncc chan fset s
  | decc chan fset orient k =>
    simp only [exec, execDecc, hp, Host.Outcome.next.injEq] at h
    exact h ▸ sameMark_completeDecc s
  | pred chan fset orient k =>
    simp only [exec, execPred, hp] at h
    cases hk : predOfId k.toNat with
    | none => simp [hk] at h
    | some p =>
      simp only [hk, Host.Outcome.next.injEq] at h
      exact h ▸ sameMark_completePred p s
  | cost chan fset orient k =>
    simp only [exec, execCost, hp] at h
    cases hk : costRow k.toNat s with
    | none => simp [hk] at h
    | some r =>
      simp only [hk, Host.Outcome.next.injEq] at h
      exact h ▸ sameMark_completeCost r s
  | srst ignored =>
    simp only [exec, execSrst, Host.Outcome.next.injEq] at h
    exact h ▸ ⟨softReset_platform s, softReset_hazard s⟩
  | f0 _ | f1 _ | f2 _ | f3 _ | f4 _ | f5 _ | f6 _ | f7 _ | f8 _ =>
    rw [exec_record rfl, Host.Outcome.next.injEq] at h
    exact h ▸ ⟨rfl, rfl⟩

/-- The engine's turn, whatever is latched. -/
theorem sameMark_fetchEngine {s t : State} (h : (fetchEngine s).outcome = .next t) : SameMark s t := by
  unfold fetchEngine at h
  split at h
  · obtain rfl : s = t := by simpa [Fetched.outcome] using h
    exact ⟨rfl, rfl⟩
  · rename_i hp
    split at h
    · exact sameMark_exec_busy hp h
    · simp [Fetched.outcome] at h

/-- `t` has the platform of `s`, and the hazard mark where `s` has it. -/
structure MarkKept (s t : State) : Prop where
  platform : t.platform = s.platform
  hazard : s.hazard = true → t.hazard = true

theorem SameMark.kept {s t : State} (h : SameMark s t) : MarkKept s t := ⟨h.platform, h.hazard.trans⟩

theorem Took.markKept {o : Option Event} {s t : State} (h : Took o s t) : MarkKept s t := by
  cases h with
  | stayed => exact ⟨rfl, id⟩
  | accepted v _ => exact (sameMark_accept v s).kept
  | ended _ _ hE => exact ⟨hE.platform, hE.hazard.trans⟩
  | reset => exact ⟨softReset_platform s, (softReset_hazard s).trans⟩
  | dropped _ => exact ⟨rfl, id⟩
  | wrote r v => exact ⟨writeReg_platform r v s, (writeReg_hazard r v s).trans⟩
  | hostRead off _ => exact ⟨hostReadReg_platform off s, (hostReadReg_hazard off s).trans⟩
  | memWrote a b _ => exact ⟨rfl, fun h => by simp [h]⟩
  | memRead a => exact ⟨hostLoad_platform a s, (hostLoad_hazard a s).trans⟩
  | sampled _ => exact ⟨sampleIrq_platform s, (sampleIrq_hazard s).trans⟩
  | gated _ => exact ⟨rfl, fun h => by simp [h]⟩
  | remapped base len _ => exact ⟨rfl, fun h => by simp [remapRange, h]⟩

theorem eq_of_done {u t : State} (h : (Fetched.done u).outcome = .next t) : u = t := by
  simpa [Fetched.outcome] using h

/-- The engine's turn runs whatever is latched; every other event is a case of `Took`. -/
theorem markKept_fetchEvent {e : Event} {s t : State} (h : (fetchEvent e s).outcome = .next t) : MarkKept s t := by
  cases e with
  | hostWrite addr size v =>
    simp only [fetchEvent] at h
    split at h
    · exact eq_of_done h ▸ ⟨rfl, id⟩
    · rename_i off _
      obtain ⟨u, hu, hT⟩ := fetchWrite_spec off v s none
      obtain rfl : u = t := by simpa [hu] using h
      exact hT.markKept
    · simp [Fetched.outcome] at h
  | hostRead addr size =>
    simp only [fetchEvent] at h
    split at h
    · exact eq_of_done h ▸ ⟨rfl, id⟩
    · exact eq_of_done h ▸ ⟨hostReadReg_platform _ s, (hostReadReg_hazard _ s).trans⟩
    · simp [Fetched.outcome] at h
  | memWrite a b => exact eq_of_done h ▸ (Took.memWrote a b rfl).markKept
  | memRead a => exact eq_of_done h ▸ (Took.memRead (o := none) a).markKept
  | irqSample => exact eq_of_done h ▸ (Took.sampled rfl).markKept
  | engine => exact (sameMark_fetchEngine h).kept
  | gate =>
    simp only [fetchEvent] at h
    split at h
    · simp [Fetched.outcome] at h
    · exact eq_of_done h ▸ (Took.gated (o := none) ‹_›).markKept
  | remap base len => exact eq_of_done h ▸ (Took.remapped base len rfl).markKept

/-- Settles O40: no event, and no meaning an event runs, clears the mark or touches the platform. -/
theorem hazardIsSticky : Obligations.HazardIsSticky := by
  intro s t h
  rw [step_eq, fetchNext] at h
  suffices MarkKept s t from ⟨this.platform, this.hazard⟩
  split at h
  · exact (sameMark_fetchEngine h).kept
  · obtain ⟨hp, hh⟩ := markKept_fetchEvent h
    exact ⟨hp, hh⟩

end Sys2Proof.Machine
end

section
/-! SUPPORT. The data memory over a step: which byte an event may change. And the accesses of the window that have no
meaning. -/

namespace Sys2Proof.Machine

/-- Abandoning a command leaves every byte outside its destination region alone (70_reset_and_hazards.md R169). -/
theorem read_abandon_outside {s : State} {a : Nat} (hw : Memory.wf s.mem = true)
    (ha : ¬ (s.phase = .busy ∧ s.lat.hasDst = true ∧ inRegion s.lat.dstRegion a = true)) :
    Memory.read (abandon s).mem a = Memory.read s.mem a := by
  unfold abandon
  split
  · rfl
  · split
    · rename_i hp hd
      exact Memory.read_scramble_outside hw _ _ a _ fun hin => ha ⟨hp, hd, outside_iff.mpr hin⟩
    · rfl

/-- Only a host store, a remap, and the end or the abandoning of a command change a byte, each in its own range
(20_memory.md R55, R57). -/
theorem Took.read_changed {o : Option Event} {s t : State} {a : Nat} (hT : Took o s t) (hw : Memory.wf s.mem = true)
    (hne : Memory.read t.mem a ≠ Memory.read s.mem a) :
    (∃ w b, o = some (.memWrite w b) ∧ a = w.toNat)
    ∨ (∃ base len, o = some (.remap base len) ∧ base ≤ a ∧ a < base + len)
    ∨ (s.phase = .busy ∧ s.lat.hasDst = true ∧ inRegion s.lat.dstRegion a = true) := by
  cases hT with
  | memWrote w b ho =>
    by_cases haw : a = w.toNat
    · exact .inl ⟨w, b, ho, haw⟩
    · exact absurd (Memory.read_write_ne hw haw b) hne
  | remapped base len ho =>
    by_cases hin : base ≤ a ∧ a < base + len
    · exact .inr (.inl ⟨base, len, ho, hin⟩)
    · exact absurd (Memory.read_scramble_outside hw _ base a len hin) hne
  | ended _ hp hE => exact .inr (.inr ⟨hp, by_contra fun ha => hne (hE.outside a hw ha)⟩)
  | reset => exact .inr (.inr (by_contra fun ha => hne (read_abandon_outside hw ha)))
  | accepted v _ =>
    obtain ⟨-, hmem, -⟩ := accept_spec v s
    exact absurd (by rw [hmem]) hne
  | stayed | dropped _ | gated _ => exact absurd rfl hne
  | wrote r v => exact absurd (by rw [writeReg_mem]) hne
  | hostRead off _ => exact absurd (by rw [hostReadReg_mem]) hne
  | memRead w => exact absurd (by rw [hostLoad_mem]) hne
  | sampled _ => exact absurd (by rw [sampleIrq_mem]) hne

/-- Settles O39, by the cases of what a step can do. -/
theorem onlyTheseStepsChangeMemory : Obligations.OnlyTheseStepsChangeMemory := by
  intro s t a h hst hne
  rcases step_spec h.busyChecked with ⟨r, hr⟩ | ⟨u, hu, hcases⟩
  · simp [hr] at hst
  · obtain rfl : u = t := by simpa [hu] using hst
    rcases hcases with ⟨-, hT, -⟩ | ⟨e, es, hs, hT⟩
    · rcases hT.read_changed h.memWf hne with ⟨_, _, ho, _⟩ | ⟨_, _, ho, _⟩ | hdst
      · simp at ho
      · simp at ho
      · exact .inr (.inr hdst)
    · rcases hT.read_changed h.memWf hne with ⟨w, b, ho, ha⟩ | ⟨base, len, ho, ha⟩ | hdst
      · obtain rfl : e = .memWrite w b := by simpa using ho
        exact .inl ⟨w, b, es, hs, ha⟩
      · obtain rfl : e = .remap base len := by simpa using ho
        exact .inr (.inl ⟨base, len, es, hs, ha⟩)
      · exact .inr (.inr hdst)

/-- Settles O60: such an access falls in the window and is undefined there, whatever its direction. -/
theorem undefinedRegisterAccessRefused : Obligations.UndefinedRegisterAccessRefused := by
  intro s es off size v hoff hsize hbad
  have hw : windowHit s.platform (s.platform.regBase + off) size = .undefined :=
    windowHit_undefined (by omega) (by omega) (by omega)
  constructor
  · intro hs
    simp [step, fetchNext, hs, fetchEvent, hw]
  · intro hs
    simp [step, fetchNext, hs, fetchEvent, hw]

end Sys2Proof.Machine
end

section
/-! SUPPORT. Encoder and decoders against each other: a CMD word and its instruction, a record and its bytes. And the
writes to CMD that are no command, and to CTRL. -/

namespace Sys2Proof

/-! ### CMD words -/

/-- A word that decodes to an instruction is that instruction's encoding: with the reserved bits 0, the word is the
command word of its fields. -/
theorem encode_of_decodeCmd {v : Word} {i : Instr} (h : decodeCmd v = .instr i) : encode i = .cmd v := by
  obtain ⟨hrsv, hop⟩ := decodeCmd_eq_instr.mp h
  rw [(encode_of_commandOf hop).1, ← hrsv, cmdWord_fields]

/-- A word with no reserved bit set and OP below 7 is a command (30_encoding.md R71). -/
theorem decodeCmd_of_lt {v : Word} (hrsv : cmdRsv v = 0) (hop : (cmdOp v).toNat < 7) :
    ∃ i, decodeCmd v = .instr i := by
  obtain ⟨i, hi⟩ := commandOf_lt hop (cmdChan v) (cmdFset v) (cmdOrient v) (cmdK v)
  exact ⟨i, decodeCmd_eq_instr.mpr ⟨hrsv, hi⟩⟩

theorem decodeCmd_reservedBits {v : Word} (h : cmdRsv v ≠ 0) : decodeCmd v = .reservedBits := if_neg h

theorem decodeCmd_reservedOp {v : Word} (hrsv : cmdRsv v = 0) (hop : 7 ≤ (cmdOp v).toNat) :
    decodeCmd v = .reservedOp := by
  rw [decodeCmd, if_pos hrsv, commandOf_ge hop]

/-! ### Records -/

/-- The length of the body of a record with a legal id (30_encoding.md R78). -/
theorem recordBodyLength_legal {w : Nat} {id : Byte} (h : id.toNat ≤ 8) :
    recordBodyLength w id = some (if id.toNat = 8 then 1 else w) := by
  by_cases h8 : id.toNat = 8
  · rw [recordBodyLength_eight h8, if_pos h8]
  · rw [recordBodyLength_of_le (by omega), if_neg h8]

/-- What a byte string decodes to, said once: the id fixes how many bytes follow it, they are all there, and they are
the record's body. -/
theorem decodeRecord_eq_instr {w : Nat} {id : Byte} {rest : List Byte} {i : Instr} :
    decodeRecord w (id :: rest) = .instr i ↔
      ∃ n, recordBodyLength w id = some n ∧ n ≤ rest.length ∧ recordOf id (rest.take n) = .instr i := by
  cases hl : recordBodyLength w id with
  | none => simp [decodeRecord, hl]
  | some n =>
    by_cases hn : rest.length < n
    · simp [decodeRecord, hl, hn]
    · simp [decodeRecord, hl, hn, Nat.not_lt.mp hn]

/-- The record of an id and a body is the one whose encoding they are; F8 has one byte of body (30_encoding.md R75 to
R77). -/
theorem encode_eq_record {i : Instr} {id : Byte} {body : List Byte} :
    encode i = .record (id :: body) ↔ recordOf id body = .instr i ∧ (id.toNat = 8 → body.length = 1) := by
  constructor
  · intro h
    cases i with
    | nop _ _ _ _ | encp _ _ _ _ | decp _ _ _ _ | encc _ _ _ _ | decc _ _ _ _ | pred _ _ _ _ | cost _ _ _ _
    | srst _ => simp [encode] at h
    | f0 _ | f1 _ | f2 _ | f3 _ | f4 _ | f5 _ | f6 _ | f7 _ | f8 _ =>
      obtain ⟨rfl, rfl⟩ : _ = id ∧ _ = body := by simpa [encode] using h
      exact ⟨rfl, by simp⟩
  · rintro ⟨h, h8⟩
    have hid : ∀ n : Nat, id.toNat = n → BitVec.ofNat 8 n = id := fun n hn => by simp [← hn]
    unfold recordOf at h
    split at h
    case h_9 hn =>
      obtain ⟨value, rfl⟩ := List.length_eq_one_iff.mp (h8 hn)
      obtain rfl : .f8 value = i := by simpa using h
      exact congrArg (fun id => Encoding.record [id, value]) (hid 8 hn)
    case h_10 => simp at h
    all_goals
      rename_i hn
      obtain rfl := Decoded.instr.inj h
      exact congrArg (fun id => Encoding.record (id :: body)) (hid _ hn)

/-- A record fits a width exactly when its id gives the length of its body there (30_encoding.md R78). -/
theorem fits_iff_recordBodyLength {i : Instr} {id : Byte} {body : List Byte} (h : encode i = .record (id :: body))
    (w : Nat) : i.fits w = true ↔ recordBodyLength w id = some body.length := by
  cases i with
  | nop _ _ _ _ | encp _ _ _ _ | decp _ _ _ _ | encc _ _ _ _ | decc _ _ _ _ | pred _ _ _ _ | cost _ _ _ _
  | srst _ => simp [encode] at h
  | f0 _ | f1 _ | f2 _ | f3 _ | f4 _ | f5 _ | f6 _ | f7 _ =>
    obtain ⟨rfl, rfl⟩ : _ = id ∧ _ = body := by simpa [encode] using h
    simpa [Instr.fits, recordBodyLength] using eq_comm
  | f8 _ =>
    obtain ⟨rfl, rfl⟩ : _ = id ∧ _ = body := by simpa [encode] using h
    simp [Instr.fits, recordBodyLength]

theorem recordBytes_of_encode {i : Instr} {bytes : List Byte} (h : encode i = .record bytes) :
    recordBytes i = bytes := by
  simp [recordBytes, h]

/-- A record that fits decodes from its own bytes. -/
theorem decode_encode_record {w : Nat} {i : Instr} {id : Byte} {body : List Byte}
    (h : encode i = .record (id :: body)) (hf : i.fits w = true) : decode w (encode i) = .instr i := by
  rw [h]
  refine decodeRecord_eq_instr.mpr ⟨body.length, (fits_iff_recordBodyLength h w).mp hf, le_rfl, ?_⟩
  rw [List.take_length]
  exact (encode_eq_record.mp h).1

/-- A decoded record is made of exactly the bytes its id asks for. -/
theorem encode_of_decodeRecord {w : Nat} {id : Byte} {rest : List Byte} {i : Instr}
    (h : decodeRecord w (id :: rest) = .instr i) :
    ∃ n, recordBodyLength w id = some n ∧ n ≤ rest.length ∧ encode i = .record (id :: rest.take n) := by
  obtain ⟨n, hl, hn, hr⟩ := decodeRecord_eq_instr.mp h
  refine ⟨n, hl, hn, encode_eq_record.mpr ⟨hr, fun h8 => ?_⟩⟩
  obtain rfl : 1 = n := by simpa [recordBodyLength_eight h8] using hl
  exact List.length_take_of_le hn

/-- Only a legal id gives a body length (30_encoding.md R80). -/
theorem le_of_recordBodyLength {w n : Nat} {id : Byte} (h : recordBodyLength w id = some n) : id.toNat ≤ 8 := by
  by_contra hgt
  rw [recordBodyLength_of_ge (by omega)] at h
  simp at h

/-- Settles O2, by the kinds of encoding: the fields of a command word, the ignored bits of SRST, the bytes of a
record. -/
theorem decodeOfEncode : Obligations.DecodeOfEncode := by
  intro w i hf
  cases i with
  | nop c f t k | encp c f t k | decp c f t k | encc c f t k | decc c f t k | pred c f t k | cost c f t k =>
    exact decodeCmd_cmdWord _ c f t k
  | srst ignored => exact decodeCtrl_srst ignored
  | f0 _ | f1 _ | f2 _ | f3 _ | f4 _ | f5 _ | f6 _ | f7 _ | f8 _ => exact decode_encode_record rfl hf

/-- Settles O3. -/
theorem cmdWordOfItsInstruction : Obligations.CmdWordOfItsInstruction := fun _ _ => encode_of_decodeCmd

/-- Settles O4: the body's length is a function of the id, and the record is the id and that many bytes. -/
theorem recordLengthFromFirstByte : Obligations.RecordLengthFromFirstByte := by
  intro w id rest
  refine ⟨fun h9 => ?_, fun h8 hlen => ?_, fun i h => ?_⟩
  · simp [decodeRecord, recordBodyLength_of_ge h9]
  · obtain ⟨i, hi, -⟩ := recordOf_instr h8 (rest.take (if id.toNat = 8 then 1 else w))
    exact ⟨i, decodeRecord_eq_instr.mpr ⟨_, recordBodyLength_legal h8, hlen, hi⟩⟩
  · obtain ⟨n, hl, hn, he⟩ := encode_of_decodeRecord h
    have h8 := le_of_recordBodyLength hl
    have hnl : n = if id.toNat = 8 then 1 else w := by simpa [recordBodyLength_legal h8, eq_comm] using hl
    have hrec : i.isRecord = true := by
      obtain ⟨j, hj, hjr⟩ := recordOf_instr h8 (rest.take n)
      obtain rfl : i = j := by simpa [hj, eq_comm] using (encode_eq_record.mp he).1
      exact hjr
    rw [recordBytes_of_encode he, fits_iff_recordBodyLength he, List.length_cons, List.length_take_of_le hn]
    exact ⟨h8, hrec, hl, by rw [hnl]; split <;> omega, rfl⟩

/-- Settles O1, word by word. -/
theorem tableWordsDecode : Obligations.TableWordsDecode := by
  unfold Obligations.TableWordsDecode
  decide

end Sys2Proof

namespace Sys2Proof.Machine

/-! ### The static error of a word that is no command (60_exceptions.md R150) -/

theorem staticCheck_rsvd {v : Word} (h : cmdRsv v ≠ 0) (p : Platform) (r : Regs) :
    staticCheck p (latchOf v r) = some (.rsvd, v) := by
  have hl : (latchOf v r).rsv ≠ 0 := h
  rw [staticCheck, if_pos hl, latchOf_word]

theorem staticCheck_op {v : Word} (hrsv : cmdRsv v = 0) (hop : 7 ≤ (cmdOp v).toNat) (p : Platform) (r : Regs) :
    staticCheck p (latchOf v r) = some (.op, v) := by
  have hl : ¬ (latchOf v r).rsv ≠ 0 := not_not.mpr hrsv
  have ho : 7 ≤ (latchOf v r).op.toNat := hop
  rw [staticCheck, if_neg hl, if_pos ho, latchOf_word]

/-! ### The steps on a write to CMD and to CTRL -/

theorem step_writeCmd {s : State} {es : List Event} {v : Word}
    (hs : s.script = .hostWrite (s.platform.regBase + 0x0C) 4 v :: es) :
    step s = (fetchCmd v { s with script := es }).outcome := step_hostWrite (by decide) (by decide) hs

theorem step_writeCtrl {s : State} {es : List Event} {v : Word}
    (hs : s.script = .hostWrite (s.platform.regBase + 0x08) 4 v :: es) :
    step s = (fetchCtrl v { s with script := es }).outcome := step_hostWrite (by decide) (by decide) hs

/-- A word that is no command is accepted all the same, its error then found by the static checks (30_encoding.md
R72). -/
theorem fetchCmd_rejected {s : State} {v : Word} (hp : s.phase = .idle) (hd : ∀ i, decodeCmd v ≠ .instr i) :
    fetchCmd v s = .done (accept v s) := by
  cases h : decodeCmd v with
  | instr i => exact absurd h (hd i)
  | reservedBits | reservedOp | noAction | badFilter | underrun => simp only [fetchCmd, hp, h]

/-- A rejected word ends at acceptance, with the code of its static error. -/
theorem step_rejectedCmd {s : State} {es : List Event} {v : Word} {code : ErrCode} (hp : s.phase = .idle)
    (hs : s.script = .hostWrite (s.platform.regBase + 0x0C) 4 v :: es) (hd : ∀ i, decodeCmd v ≠ .instr i)
    (hc : staticCheck s.platform (latchOf v s.regs) = some (code, v)) :
    ∃ t, step s = .next t ∧ t.phase = .idle ∧ t.regs.cmd = v ∧ t.regs.errInfo = v ∧ t.status.err = true
      ∧ t.status.done = false ∧ t.status.errcode = code ∧ t.mem = s.mem := by
  obtain ⟨-, hmem, -, -, -, -, -, hdone, -, hregs, -, herr⟩ := accept_spec v { s with script := es }
  obtain ⟨hidle, he, hcode, hinfo⟩ := herr code v hc
  have hstep : step s = .next (accept v { s with script := es }) := by
    rw [step_writeCmd hs, fetchCmd_rejected (s := { s with script := es }) hp hd, Fetched.outcome]
  exact ⟨_, hstep, hidle, by rw [hregs], hinfo, he, hdone, hcode, hmem⟩

/-- Settles O5: the reserved bits, then OP, then nothing left to reject. -/
theorem rejectedCmdWordEndsAtAcceptance : Obligations.RejectedCmdWordEndsAtAcceptance := by
  intro s es v hp hs
  rw [← cmdOp_toNat, ne_eq, ← cmdRsv_eq_zero]
  refine ⟨fun hrsv => ?_, fun hrsv hop => ?_, fun hrsv hop => ?_⟩
  · exact step_rejectedCmd hp hs (by simp [decodeCmd_reservedBits hrsv]) (staticCheck_rsvd hrsv _ _)
  · exact step_rejectedCmd hp hs (by simp [decodeCmd_reservedOp hrsv hop]) (staticCheck_op hrsv hop _ _)
  · obtain ⟨i, hi⟩ := decodeCmd_of_lt hrsv hop
    exact ⟨i, hi, encode_of_decodeCmd hi⟩

/-- Settles O7, by bit 0 of the word. -/
theorem stepRunsSoftReset : Obligations.StepRunsSoftReset := by
  intro s es v hs
  rw [step_writeCtrl hs, fetchCtrl, decodeCtrl, (and_one v).1, (and_one v).2]
  exact ⟨fun h => ⟨v.extractLsb' 1 31, by rw [if_pos h]; rfl⟩, fun h => by rw [h]; rfl⟩

end Sys2Proof.Machine
end

section
/-! SUPPORT. The predictors: the reduction modulo 256, the predictions' ranges, the Paeth choice, and the history rows
as the rows of the plane (40_predictors.md R87 to R98). -/

namespace Sys2Proof.Machine

/-! ### Residual and reconstruction -/

theorem toNat_mod256 (a : Int) : ((mod256 a).toNat : Int) = a % 256 := by
  rw [mod256, BitVec.toNat_ofInt]
  omega

/-- The unsigned reading of a residual reconstructs as the signed one does. -/
theorem reconstruct_eq_mod256_toNat (k : Pred) (n : Neighbours) (r : Byte) :
    reconstruct k n r = mod256 (predict k n + r.toNat) := by
  rw [reconstruct_eq, mod256_add, mod256_toNat]

@[simp] theorem reconstruct_residual (k : Pred) (n : Neighbours) (sample : Byte) :
    reconstruct k n (residual k n sample) = sample := by
  rw [reconstruct_eq, residual_eq, add_sub_cancel]

/-- Settles O42: each byte is a `mod256` of an integer, and the two wrapped byte operations cancel. -/
theorem reconstructionInvertsResidual : Obligations.ReconstructionInvertsResidual := by
  intro k n sample r
  refine ⟨?_, ?_, ?_, reconstruct_residual k n sample⟩
  · rw [residual, toNat_mod256]
  · rw [reconstruct, s8_eq_toInt, toNat_mod256]
  · rw [reconstruct_eq_mod256_toNat, toNat_mod256]

/-! ### The Paeth choice -/

/-- The three ends of Paeth's comparisons, each with what it says of the distances to `a + b - c`: a neighbour passed
over in favour of a later one is strictly farther. -/
theorem paeth_cases (a b c : Int) :
    let dist := fun u : Int => (a + b - c - u).natAbs
    (paeth a b c = a ∧ dist a ≤ dist b ∧ dist a ≤ dist c)
      ∨ (paeth a b c = b ∧ dist b < dist a ∧ dist b ≤ dist c)
      ∨ (paeth a b c = c ∧ dist c < dist a ∧ dist c < dist b) := by
  simp only [paeth, Bool.and_eq_true, decide_eq_true_eq]
  split_ifs with ha hb
  · exact .inl ⟨rfl, ha⟩
  · exact .inr (.inl ⟨rfl, by omega, hb⟩)
  · exact .inr (.inr ⟨rfl, by omega, by omega⟩)

theorem paeth_eq_or (a b c : Int) : paeth a b c = a ∨ paeth a b c = b ∨ paeth a b c = c :=
  (paeth_cases a b c).imp And.left (.imp And.left And.left)

/-- Settles O44, by the three ends of the comparisons. -/
theorem paethTakesClosestNeighbour : Obligations.PaethTakesClosestNeighbour := by
  intro a b c
  obtain ⟨hv, hab, hac⟩ | ⟨hv, hba, hbc⟩ | ⟨hv, hca, hcb⟩ := paeth_cases a.toNat b.toNat c.toNat <;> rw [hv]
  · exact ⟨.inl rfl, le_rfl, hab, hac, fun _ => rfl, fun _ => .inl rfl⟩
  · exact ⟨.inr (.inl rfl), hba.le, le_rfl, hbc, fun h => absurd h hba.ne', fun _ => .inr rfl⟩
  · exact ⟨.inr (.inr rfl), hca.le, hcb.le, le_rfl, fun h => absurd h hca.ne', fun h => absurd h hcb.ne'⟩

/-! ### The predictions' ranges -/

/-- Settles O43, by the predictor: a neighbour, a halved sum of two, or Linear's unreduced sum. -/
theorem predictionRanges : Obligations.PredictionRanges := by
  intro k n
  have hl := n.left.isLt
  have hu := n.up.isLt
  have hul := n.upperLeft.isLt
  have ha := n.knightA.isLt
  have hb := n.knightB.isLt
  refine ⟨fun hk => ?_, rfl, ?_⟩
  · cases k with
    | linear => exact absurd rfl hk
    | paeth =>
      have hp := paeth_eq_or n.left.toNat n.up.toNat n.upperLeft.toNat
      simp only [predict]
      omega
    | none | left | up | average | knight => simp only [predict]; omega
  · simp only [predict]; omega

/-! ### The history rows -/

/-- A sample of the row `dy` above, zeros where there is none, is the plane's: a row of zeros gives the 0 that R87 gives
above the plane. -/
theorem sampleBack_historyRow (P : Plane) (w y x dy dx : Nat) :
    sampleBack (historyRow P w y dy) x dx = planeSample P y x dy dx := by
  by_cases hy : dy ≤ y
  · simp [sampleBack, historyRow, planeSample, hy]
  · rw [historyRow, if_neg hy, sampleBack, getD_zeroRow]
    simp [planeSample, hy]

@[simp] theorem historyRow_zero (P : Plane) (w y : Nat) : historyRow P w y 0 = P.getD y [] := by
  simp [historyRow]

/-- Settles O45, neighbour by neighbour. -/
theorem historyGivesPlaneNeighbours : Obligations.HistoryGivesPlaneNeighbours := by
  intro P h w y x _ _ _
  rw [← historyRow_zero P w y]
  simp only [neighboursAt, planeNeighbours, sampleBack_historyRow]

end Sys2Proof.Machine
end

section
/-! SUPPORT. Selection and the encoder: the least id of least cost, the constant rows, the lengths of the records and of
the stream (41_scanline_codec.md R99 to R107, R124). -/

namespace Sys2Proof.Machine

/-! ### Costs and the selection -/

/-- The engine's cost of a row is the sum of its absolute signed bytes (41_scanline_codec.md R99). -/
theorem rowCost_eq_absSum : rowCost = absSum := by
  funext r
  simp only [rowCost, absSum, s8_eq_toInt]

/-- The selection is the first minimum: nothing costs less, and everything before it costs more (41_scanline_codec.md
R103). -/
theorem selectFilter_spec {cs : List Nat} (h : cs ≠ []) :
    (∀ j, j < cs.length → cs.getD (selectFilter cs) 0 ≤ cs.getD j 0)
      ∧ ∀ j, j < selectFilter cs → cs.getD (selectFilter cs) 0 < cs.getD j 0 := by
  obtain ⟨c, cs, rfl⟩ := List.exists_cons_of_ne_nil h
  obtain ⟨hsel, hmin⟩ | ⟨k, -, hsel, hlt, hmin, hfirst⟩ := selectFrom_spec cs 0 c 1 <;> rw [selectFilter, hsel]
  · refine ⟨fun j hj => ?_, fun j hj => absurd hj (Nat.not_lt_zero j)⟩
    cases j with
    | zero => exact le_rfl
    | succ j => exact hmin j (by simpa using hj)
  · rw [Nat.add_comm, List.getD_cons_succ]
    constructor <;> intro j hj
    · cases j with
      | zero => exact hlt.le
      | succ j => exact hmin j (by simpa using hj)
    · cases j with
      | zero => exact hlt
      | succ j => exact hfirst j (by omega)

/-- The id the competition selects for a row that is not constant. -/
def selectedId (row p q : List Byte) : Nat := selectFilter ((candidateRows row p q).map rowCost)

theorem candidateCosts_ne_nil (row p q : List Byte) : (candidateRows row p q).map rowCost ≠ [] := by
  simp [candidateRows]

theorem selectedId_lt_eight (row p q : List Byte) : selectedId row p q < 8 := by
  simpa [selectedId] using selectFilter_lt (candidateCosts_ne_nil row p q)

/-- The escape-7 row is that of id 2 (41_scanline_codec.md R100, R107). -/
theorem deltaRow_eq_residualRow_up (row p q : List Byte) : deltaRow row p = residualRow .up row p q := rfl

/-- Id 7 costs what id 2 costs, and the tie goes to the lower id (41_scanline_codec.md R107). -/
theorem selectedId_ne_seven (row p q : List Byte) : selectedId row p q ≠ 7 := by
  intro h7
  have hlt := (selectFilter_spec (candidateCosts_ne_nil row p q)).2 2 (by rw [← selectedId, h7]; decide)
  rw [← selectedId, h7] at hlt
  have htie : ((candidateRows row p q).map rowCost).getD 7 0 = ((candidateRows row p q).map rowCost).getD 2 0 :=
    congrArg rowCost (deltaRow_eq_residualRow_up row p q)
  exact absurd htie hlt.ne

theorem selectedId_le_six (row p q : List Byte) : selectedId row p q ≤ 6 := by
  have hlt := selectedId_lt_eight row p q
  have hne := selectedId_ne_seven row p q
  omega

/-! ### The records -/

theorem isConstant_iff_eq_replicate {row : List Byte} :
    isConstant row = true ↔ row = List.replicate row.length (row.headD 0) := by
  simp [isConstant, List.eq_replicate_iff]

@[simp] theorem isConstant_replicate (w : Nat) (v : Byte) : isConstant (List.replicate w v) = true := by
  cases w <;> simp [isConstant, List.replicate_succ]

/-- Two different samples make a row that is not constant. -/
theorem isConstant_eq_false {row : List Byte} {x : Nat} (hx : x < row.length) (h : row.getD x 0 ≠ row.getD 0 0) :
    isConstant row = false := by
  refine Bool.eq_false_iff.mpr fun hc => h ?_
  rw [isConstant_iff_eq_replicate.mp hc]
  simp [List.getD_eq_getElem?_getD, hx, show 0 < row.length by omega]

theorem encodeRecord_constant {row : List Byte} (h : isConstant row = true) (p q : List Byte) :
    encodeRecord true row p q = [0x08, row.headD 0] := by
  simp [encodeRecord, h]

theorem encodeRecord_selected {row : List Byte} (h : isConstant row = false) (p q : List Byte) :
    encodeRecord true row p q
      = BitVec.ofNat 8 (selectedId row p q) :: (candidateRows row p q).getD (selectedId row p q) [] := by
  simp [encodeRecord, h, selectedId]

theorem encodeRecord_restricted (row p q : List Byte) :
    encodeRecord false row p q = 0x04 :: residualRow .paeth row p q := rfl

/-- Settles O46: the selected id is the first minimum of the engine's costs. -/
theorem lowestIdOfLeastCost : Obligations.LowestIdOfLeastCost := by
  rintro row p q x costs hx hne rfl
  rw [← rowCost_eq_absSum]
  obtain ⟨hmin, hfirst⟩ := selectFilter_spec (candidateCosts_ne_nil row p q)
  exact ⟨selectedId row p q, selectedId_lt_eight row p q, rfl, encodeRecord_selected (isConstant_eq_false hx hne) p q,
    fun j hj => hmin j (by simpa using hj), hfirst⟩

/-- Settles O47: a tie with id 2 that the lower id wins, and the decoder's arm for id 7. -/
theorem escapeSevenNeverSelected : Obligations.EscapeSevenNeverSelected := by
  intro row p q
  refine ⟨deltaRow_eq_residualRow_up row p q, ?_, ?_, ⟨_, encodeRecord_restricted row p q⟩, fun body rest => ?_⟩
  · rw [rowCost_eq_absSum, deltaRow_eq_residualRow_up row p q]
  · cases hc : isConstant row with
    | true => exact ⟨_, _, encodeRecord_constant hc p q, .inr rfl⟩
    | false =>
      have hle := selectedId_le_six row p q
      exact ⟨_, _, encodeRecord_selected hc p q, .inl (by rw [BitVec.toNat_ofNat]; omega)⟩
  · exact decodeRecord_eq_instr.mpr ⟨body.length, rfl, by simp, by simp [recordOf]⟩

/-- Settles O48. -/
theorem constantRowIsEscapeEight : Obligations.ConstantRowIsEscapeEight := by
  intro v w p q hw
  obtain ⟨n, rfl⟩ := Nat.exists_eq_add_of_le' hw
  exact ⟨encodeRecord_constant (isConstant_replicate (n + 1) v) p q, by simp [rowCandidates],
    encodeRecord_restricted _ p q⟩

/-! ### The length of the stream (41_scanline_codec.md R124) -/

theorem length_encodeRecord_restricted (row p q : List Byte) :
    (encodeRecord false row p q).length = 1 + row.length := by
  simp [encodeRecord_restricted, Nat.add_comm]

theorem length_selectedRow (row p q : List Byte) :
    ((candidateRows row p q).getD (selectedId row p q) []).length = row.length := by
  have hk : selectedId row p q < (candidateRows row p q).length := by simpa using selectedId_lt_eight row p q
  rw [List.getD_eq_getElem _ _ hk]
  exact length_of_mem_candidateRows (List.getElem_mem hk)

/-- A full-set record has two bytes, or the id and a byte for each sample. -/
theorem length_encodeRecord_full (row p q : List Byte) :
    (encodeRecord true row p q).length = if isConstant row then 2 else 1 + row.length := by
  cases hc : isConstant row with
  | true => simp [encodeRecord_constant hc]
  | false => simpa [encodeRecord_selected hc, Nat.add_comm] using length_selectedRow row p q

theorem length_planeRecords_le {full : Bool} {n : Nat} :
    ∀ {P : Plane} {p q : List Byte}, (∀ row ∈ P, ∀ p q, (encodeRecord full row p q).length ≤ n) →
      (planeRecords full p q P).length ≤ P.length * n
  | [], _, _, _ => by simp [planeRecords]
  | row :: P, p, q, h => by
    have hrow := h row List.mem_cons_self p q
    have hrest := length_planeRecords_le (p := row) (q := p) fun r hr => h r (List.mem_cons_of_mem row hr)
    rw [planeRecords, List.length_append, List.length_cons, Nat.succ_mul]
    omega

theorem le_length_planeRecords {full : Bool} {n : Nat} :
    ∀ {P : Plane} {p q : List Byte}, (∀ row ∈ P, ∀ p q, n ≤ (encodeRecord full row p q).length) →
      P.length * n ≤ (planeRecords full p q P).length
  | [], _, _, _ => by simp
  | row :: P, p, q, h => by
    have hrow := h row List.mem_cons_self p q
    have hrest := le_length_planeRecords (p := row) (q := p) fun r hr => h r (List.mem_cons_of_mem row hr)
    rw [planeRecords, List.length_append, List.length_cons, Nat.succ_mul]
    omega

/-- Settles O49, by the lengths of the records. -/
theorem streamSizeBounds : Obligations.StreamSizeBounds := by
  rintro P h w ⟨rfl, hrow⟩ hh hw
  have hfull : ∀ row ∈ P, ∀ p q,
      2 ≤ (encodeRecord true row p q).length ∧ (encodeRecord true row p q).length ≤ 1 + w := fun row hr p q => by
    rw [length_encodeRecord_full, hrow row hr]
    split <;> omega
  have hrestr : ∀ row ∈ P, ∀ p q, (encodeRecord false row p q).length = 1 + w := fun row hr p q => by
    rw [length_encodeRecord_restricted, hrow row hr]
  have hle : ∀ full, (encodePlane full w P).length ≤ P.length * (1 + w) := fun full => by
    rw [encodePlane_eq]
    refine length_planeRecords_le fun row hr p q => ?_
    cases full with
    | true => exact (hfull row hr p q).2
    | false => exact (hrestr row hr p q).le
  refine ⟨?_, hle true, (hle false).antisymm ?_, fun d full hh' hw' => ?_⟩
  · rw [encodePlane_eq, Nat.mul_comm]
    exact le_length_planeRecords fun row hr p q => (hfull row hr p q).1
  · rw [encodePlane_eq]
    exact le_length_planeRecords fun row hr p q => (hrestr row hr p q).ge
  · exact (hle full).trans (Nat.mul_le_mul hh' (Nat.add_le_add_left hw' 1))

end Sys2Proof.Machine
end

section
/-! SUPPORT. The decoder's ends, the records run by exec, and the round trip: the record the encoder emits for a row
rebuilds that row (41_scanline_codec.md R109, R119 to R123). -/

namespace Sys2Proof.Machine

/-! ### The decoder's loop -/

theorem decodeRows_record {len w h : Nat} {read : Nat → Option Byte} {e : Engine} {i : Instr}
    (hf : fetchRecord len read w e.cur = .record i) :
    decodeRows len read w (h + 1) e = decodeRows len read w h (recordStep i e) := by
  simp only [decodeRows, hf]

theorem decodeRows_underrun {len w : Nat} {read : Nat → Option Byte} {e : Engine} (h : Nat)
    (hf : fetchRecord len read w e.cur = .underrun) :
    decodeRows len read w (h + 1) e = .failed .underrun (sat32 len) := by
  simp only [decodeRows, hf]

theorem decodeRows_badFilter {len w : Nat} {read : Nat → Option Byte} {e : Engine} (h : Nat)
    (hf : fetchRecord len read w e.cur = .badFilter) :
    decodeRows len read w (h + 1) e = .failed .badFilter (sat32 e.cur) := by
  simp only [decodeRows, hf]

theorem fetchRecord_of_decodeRecord {bytes : List Byte} {w cur : Nat} {i : Instr}
    (h : decodeRecord w (bytes.drop cur) = .instr i) : fetchRecord bytes.length (readList bytes) w cur = .record i := by
  rw [fetchRecord_readList, h]

/-- A number a register holds does not saturate. -/
theorem sat32_of_lt {n : Nat} (h : n < 2 ^ 32) : sat32 n = BitVec.ofNat 32 n := by
  rw [sat32, Nat.min_eq_left (by omega)]

/-- Settles O9: the fetch at the cursor is the decoding of the bytes there, and exec of a record is its effect on the
hidden state. -/
theorem decoderRunsRecordsByExec : Obligations.DecoderRunsRecordsByExec := by
  intro s bytes w h e i hi
  have hf := fetchRecord_of_decodeRecord hi
  exact ⟨_, exec_record (fetchRecord_record hf).1 _, decodeRows_record hf⟩

/-- Settles O31: the id is tested before the record's length and its operand bytes. -/
theorem illegalFilterIdEndsDecode : Obligations.IllegalFilterIdEndsDecode := by
  intro len read w h e id hc hlen hr hid
  have hf : fetchRecord len read w e.cur = .badFilter := by
    simp [fetchRecord, Nat.not_le.mpr hc, hr, recordBodyLength_of_ge hid]
  rw [decodeRows_badFilter h hf, sat32_of_lt (hc.trans hlen)]

/-- Settles O32, by the two ends of the fetch: no byte at the cursor, or too few after a legal id. -/
theorem truncatedStreamEndsDecode : Obligations.TruncatedStreamEndsDecode := by
  intro len read w h e id hlen
  rw [← sat32_of_lt hlen]
  refine ⟨fun hc => decodeRows_underrun h (if_pos hc), fun hc hr hid hshort => decodeRows_underrun h ?_⟩
  have hn : len < e.cur + 1 + (if id.toNat = 8 then 1 else w) := by split_ifs at hshort ⊢ <;> omega
  simp only [fetchRecord, Nat.not_le.mpr hc, hr, recordBodyLength_legal hid, if_false, if_pos hn]

/-! ### A row from its residuals -/

theorem sampleBack_one (row : List Byte) (x : Nat) :
    sampleBack row x 1 = if x = 0 then 0 else row.getD (x - 1) 0 := by
  cases x <;> simp [sampleBack]

/-- The decoded row is the source row, sample by sample: `left` is the sample before, decoded already, and the other
neighbours come from the history rows (40_predictors.md R98). -/
theorem getD_decodePixels_residualRow (k : Pred) (row p q : List Byte) (x : Nat) (hx : x < row.length) :
    (decodePixels k p q [] (residualRow k row p q)).getD x 0 = row.getD x 0 := by
  induction x using Nat.strong_induction_on with
  | _ x ih =>
    have hleft : sampleBack (decodePixels k p q [] (residualRow k row p q)) x 1 = sampleBack row x 1 := by
      rw [sampleBack_one, sampleBack_one]
      split
      · rfl
      · exact ih (x - 1) (by omega) (by omega)
    rw [getD_decodePixels _ _ _ _ (by simpa using hx), getD_residualRow _ _ _ _ hx, neighboursAt, hleft]
    exact reconstruct_residual k (neighboursAt row p q x) _

theorem decodePixels_residualRow (k : Pred) (row p q : List Byte) :
    decodePixels k p q [] (residualRow k row p q) = row := by
  have hlen : (decodePixels k p q [] (residualRow k row p q)).length = row.length := by simp [length_decodePixels]
  refine List.ext_getElem hlen fun x h1 h2 => ?_
  rw [← List.getD_eq_getElem _ 0 h1, ← List.getD_eq_getElem _ 0 h2, getD_decodePixels_residualRow k row p q x h2]

/-! ### The round trip -/

/-- Ids 0 to 6: the candidate row is the residual row of a predictor, and the record of the id rebuilds with the same
predictor. -/
theorem pixelFilter_of_le_six {k : Nat} (hk : k ≤ 6) :
    ∃ pr, (∀ row p q, (candidateRows row p q).getD k [] = residualRow pr row p q)
      ∧ ∀ body, ∃ i, recordOf (BitVec.ofNat 8 k) body = .instr i ∧ ∀ e, recordStep i e = pixelRecord pr body e := by
  interval_cases k <;> exact ⟨_, fun _ _ _ => rfl, fun _ => ⟨_, rfl, fun _ => rfl⟩⟩

/-- `bytes` begins with a record of `n` bytes that rebuilds `row` over the history rows `p` and `q`. -/
def Rebuilds (bytes row p q : List Byte) (n : Nat) : Prop :=
  ∃ i, decodeRecord row.length bytes = .instr i
    ∧ ∀ e : Engine, e.width = row.length → e.prior = p → e.priorprior = q → recordStep i e = advanceRow row n e

theorem rebuilds_candidateRow {k : Nat} (hk : k ≤ 6) (row p q rest : List Byte) :
    Rebuilds (BitVec.ofNat 8 k :: (candidateRows row p q).getD k [] ++ rest) row p q (1 + row.length) := by
  obtain ⟨pr, hcand, hrec⟩ := pixelFilter_of_le_six hk
  obtain ⟨i, hi, hstep⟩ := hrec (residualRow pr row p q)
  rw [hcand, List.cons_append]
  refine ⟨i, decodeRecord_eq_instr.mpr ⟨row.length, recordBodyLength_of_le (by simp; omega), by simp, ?_⟩, ?_⟩
  · rwa [List.take_left' (length_residualRow pr row p q)]
  · rintro e - rfl rfl
    rw [hstep, pixelRecord, decodePixels_residualRow, length_residualRow]

theorem rebuilds_uniform {row : List Byte} (hc : isConstant row = true) (p q rest : List Byte) :
    Rebuilds ([0x08, row.headD 0] ++ rest) row p q 2 := by
  refine ⟨.f8 (row.headD 0), decodeRecord_eq_instr.mpr ⟨1, rfl, by simp, rfl⟩, fun e hw _ _ => ?_⟩
  rw [recordStep, uniformRecord, hw, ← isConstant_iff_eq_replicate.mp hc]

/-- The record the encoder emits for a row rebuilds the row, whatever follows it in the stream: escape 8 by the value,
ids 0 to 6 by their residuals; the encoder emits no other id (41_scanline_codec.md R107). -/
theorem rebuilds_encodeRecord (full : Bool) (row p q rest : List Byte) :
    Rebuilds (encodeRecord full row p q ++ rest) row p q (encodeRecord full row p q).length := by
  cases full with
  | false =>
    rw [length_encodeRecord_restricted]
    exact rebuilds_candidateRow (k := 4) (by decide) row p q rest
  | true =>
    rw [length_encodeRecord_full]
    cases hc : isConstant row with
    | true => rw [encodeRecord_constant hc]; exact rebuilds_uniform hc p q rest
    | false => rw [encodeRecord_selected hc]; exact rebuilds_candidateRow (selectedId_le_six row p q) row p q rest

/-- Decoding the records of a plane from a cursor at their head, the history rows being those they were made with, adds
the plane's rows and leaves the cursor behind the records. -/
theorem decodeRows_planeRecords (bytes : List Byte) (full : Bool) (w : Nat) :
    ∀ (P : Plane) (e : Engine), (∀ row ∈ P, row.length = w) → e.width = w →
      bytes.drop e.cur = planeRecords full e.prior e.priorprior P →
      ∃ e', decodeRows bytes.length (readList bytes) w P.length e = .done e' ∧ e'.rows = e.rows ++ P
        ∧ e'.cur = e.cur + (planeRecords full e.prior e.priorprior P).length
  | [], e, _, _, _ => ⟨e, rfl, by simp, rfl⟩
  | row :: P, e, hrow, hw, hdrop => by
    obtain rfl := hrow row List.mem_cons_self
    obtain ⟨i, hi, hstep⟩ := rebuilds_encodeRecord full row e.prior e.priorprior (planeRecords full row e.prior P)
    have hrest : bytes.drop (e.cur + (encodeRecord full row e.prior e.priorprior).length)
        = planeRecords full row e.prior P := by
      rw [← List.drop_drop, hdrop, planeRecords, List.drop_left]
    obtain ⟨e', hdone, hrows, hcur⟩ := decodeRows_planeRecords bytes full row.length P
      (advanceRow row (encodeRecord full row e.prior e.priorprior).length e)
      (fun r hr => hrow r (List.mem_cons_of_mem row hr)) hw hrest
    refine ⟨e', ?_, by simpa using hrows, ?_⟩
    · rw [List.length_cons, decodeRows_record (fetchRecord_of_decodeRecord (by rw [hdrop]; exact hi)),
        hstep e hw rfl rfl, hdone]
    · rw [hcur, planeRecords, List.length_append, ← Nat.add_assoc]; rfl

/-- Settles O50: the decoder begins at the head of the records with the encoder's first history rows. -/
theorem scanlineRoundTrip : Obligations.ScanlineRoundTrip := by
  rintro P h w full ⟨rfl, hrow⟩ - -
  obtain ⟨e, hdone, hrows, hcur⟩ := decodeRows_planeRecords (encodePlane full w P) full w P (engineStart w) hrow rfl
    (encodePlane_eq full w P)
  exact ⟨e, hdone, hrows, by rw [hcur, encodePlane_eq]; exact Nat.zero_add _⟩

end Sys2Proof.Machine
end

section
/-! SUPPORT. The filter records, sample by sample (41_scanline_codec.md R110 to R118). -/

namespace Sys2Proof.Machine

/-- A record whose effect on the hidden state is a new row gives that row. -/
theorem recordGives_of_advanceRow {i : Instr} {s : State} {row : List Byte} {len n : Nat}
    {pixel : List Byte → Nat → Byte} (hi : i.isRecord = true) (hstep : recordStep i s.eng = advanceRow row n s.eng)
    (hlen : row.length = len) (hp : ∀ x, x < len → row.getD x 0 = pixel row x) : recordGives i s len n pixel :=
  ⟨row, by rw [exec_record hi, hstep]; rfl, hlen, hp⟩

/-- What the records of ids 0 to 6 share: each sample is the predicted value, from the row itself and the history rows,
plus the record's byte, modulo 256. -/
theorem recordGives_of_pixelRecord {i : Instr} {s : State} {k : Pred} {body : List Byte}
    {pixel : List Byte → Nat → Byte} (hi : i.isRecord = true) (hstep : recordStep i s.eng = pixelRecord k body s.eng)
    (hp : ∀ row x, mod256 (predict k (neighboursAt row s.eng.prior s.eng.priorprior x)) + body.getD x 0 = pixel row x) :
    recordGives i s body.length (1 + body.length) pixel :=
  recordGives_of_advanceRow hi hstep (length_decodePixels _ _ _ _) fun x hx =>
    (getD_decodePixels _ _ _ _ hx).trans ((reconstruct_eq _ _ _).trans (hp _ x))

/-- Clipping is the two bounds taken one after the other. -/
theorem clipByte_eq (a : Int) : clipByte a = BitVec.ofInt 8 (max 0 (min 255 a)) := by
  unfold clipByte
  split_ifs with hneg hbig
  · rw [max_eq_left (by omega)]; rfl
  · rw [min_eq_left (by omega)]; rfl
  · rw [min_eq_right (by omega), max_eq_right (by omega)]

/-- Settles O22: the prediction is 0. -/
theorem recordF0Decodes : Obligations.RecordF0Decodes := fun _ _ =>
  recordGives_of_pixelRecord (k := .none) rfl rfl fun _ _ => BitVec.zero_add _

/-- Settles O23. -/
theorem recordF1Decodes : Obligations.RecordF1Decodes := fun _ _ =>
  recordGives_of_pixelRecord (k := .left) rfl rfl fun _ _ => by
    simp only [predict, neighboursAt, mod256_toNat, sampleBack_one]

/-- Settles O24. -/
theorem recordF2Decodes : Obligations.RecordF2Decodes := fun _ _ =>
  recordGives_of_pixelRecord (k := .up) rfl rfl fun _ _ => by
    simp only [predict, neighboursAt, mod256_toNat, sampleBack_zero]

/-- Settles O25: the sum of the two samples is one of naturals, not reduced before it is halved. -/
theorem recordF3Decodes : Obligations.RecordF3Decodes := fun _ _ =>
  recordGives_of_pixelRecord (k := .average) rfl rfl fun _ _ => by
    simp only [predict, neighboursAt, mod256_natCast, sampleBack_zero, sampleBack_one]

/-- Settles O26. -/
theorem recordF4Decodes : Obligations.RecordF4Decodes := fun _ _ =>
  recordGives_of_pixelRecord (k := .paeth) rfl rfl fun _ _ => by
    simp only [predict, neighboursAt, mod256, sampleBack_zero, sampleBack_one]

/-- Settles O27: the unreduced sum, reduced once, is the sum of the bytes. -/
theorem recordF5Decodes : Obligations.RecordF5Decodes := fun _ _ =>
  recordGives_of_pixelRecord (k := .linear) rfl rfl fun _ _ => by
    simp only [predict, neighboursAt, mod256_sub, mod256_add, mod256_toNat, sampleBack_zero, sampleBack_one]

/-- Settles O28: the two knight's-move samples, each 0 where its column does not exist. -/
theorem recordF6Decodes : Obligations.RecordF6Decodes := fun _ _ =>
  recordGives_of_pixelRecord (k := .knight) rfl rfl fun _ _ => by
    simp only [predict, neighboursAt, mod256_natCast, sampleBack]

/-- Settles O29: each sample is clipped to the range of a byte, the delta read as signed. -/
theorem recordF7Decodes : Obligations.RecordF7Decodes := fun _ _ =>
  recordGives_of_advanceRow rfl rfl (length_decodeDelta _ _) fun _ hx => by
    rw [getD_decodeDelta _ _ hx, clipByte_eq, s8_eq_toInt]

/-- Settles O30. -/
theorem recordF8Decodes : Obligations.RecordF8Decodes := fun _ _ =>
  recordGives_of_advanceRow rfl rfl List.length_replicate fun _ hx => List.getD_replicate _ hx

end Sys2Proof.Machine
end

section
/-! SUPPORT. The transpose, sample by sample; and the channel pipeline: the component EncodeChannel keeps is the
compressed stream of the orientation its flag names, and the decoder undoes either one (42_channel_pipeline.md R125
to R129). -/

namespace Sys2Proof.Machine

/-! ### The transpose -/

/-- A row is what its samples, read in order, make. -/
theorem map_getD_range_length (row : List Byte) : ((List.range row.length).map fun x => row.getD x 0) = row :=
  List.ext_getElem (by simp) fun x _ hx => by simp [List.getElem?_eq_getElem hx]

/-- A column's sample at `i` is the sample of row `i`; beyond the plane both are 0. -/
theorem getD_column (P : Plane) (i j : Nat) : (P.map fun row => row.getD j 0).getD i 0 = (P.getD i []).getD j 0 :=
  List.getD_map P [] fun row => row.getD j 0

theorem isPlane_transpose {P : Plane} {h w : Nat} (hP : isPlane P h w) : isPlane (transpose w P) w h := by
  obtain ⟨hlen, -⟩ := hP
  refine ⟨by simp [transpose], fun row hrow => ?_⟩
  obtain ⟨j, -, rfl⟩ := List.mem_map.mp hrow
  rwa [List.length_map]

theorem getD_transpose (P : Plane) {w j : Nat} (i : Nat) (hj : j < w) :
    ((transpose w P).getD j []).getD i 0 = (P.getD i []).getD j 0 := by
  rw [transpose, getD_map_range _ _ hj, getD_column]

/-- Row `i` of the transpose of the transpose is made of the samples of row `i` of the plane. -/
theorem transpose_transpose {P : Plane} {h w : Nat} (hP : isPlane P h w) : transpose h (transpose w P) = P := by
  obtain ⟨rfl, hrow⟩ := hP
  refine List.ext_getElem (by simp [transpose]) fun i _ hi => ?_
  calc (transpose P.length (transpose w P))[i]
      = (List.range w).map fun j => (P.map fun row => row.getD j 0).getD i 0 := by simp [transpose]
    _ = (List.range P[i].length).map fun j => P[i].getD j 0 := by
        simp only [getD_column, List.getD_eq_getElem _ _ hi, hrow _ (List.getElem_mem hi)]
    _ = P[i] := map_getD_range_length _

/-- Settles O51. -/
theorem transposeSwapsAndInverts : Obligations.TransposeSwapsAndInverts := fun P _ _ hP =>
  ⟨isPlane_transpose hP, fun i _ _ hj => getD_transpose P i hj, transpose_transpose hP⟩

/-! ### The choice of the trial -/

theorem encodeChannel_eq_chooseTrial (full : Bool) (h w : Nat) (P : Plane) :
    encodeChannel full h w P = chooseTrial (Config.codec.compress (encodePlane full w P))
      (Config.codec.compress (encodePlane full h (transpose w P))) := rfl

theorem chooseTrial_of_lt {c0 c1 : List Byte} (h : c1.length < c0.length) :
    chooseTrial c0 c1 = ⟨c1, true, c0.length, c1.length⟩ := if_pos h

theorem chooseTrial_of_le {c0 c1 : List Byte} (h : c0.length ≤ c1.length) :
    chooseTrial c0 c1 = ⟨c0, false, c0.length, c1.length⟩ := if_neg (Nat.not_lt.mpr h)

/-- Settles O52: for a plane equal to its transpose the two trials are one, a tie. -/
theorem smallerTrialWinsTiesRowMajor : Obligations.SmallerTrialWinsTiesRowMajor := by
  rintro P h w full c0 c1 rfl rfl
  rw [encodeChannel_eq_chooseTrial]
  refine ⟨chooseTrial_of_lt, chooseTrial_of_le, ?_⟩
  rintro rfl hsymm
  rw [hsymm, chooseTrial_of_le le_rfl]

/-! ### The round trip of the channel -/

/-- The component is the compressed stream of the orientation the flag names. -/
theorem encodeChannel_comp (full : Bool) (h w : Nat) (P : Plane) :
    (encodeChannel full h w P).comp
      = Config.codec.compress (encodeOriented full (encodeChannel full h w P).flag h w P).stream := by
  rw [encodeChannel_eq_chooseTrial]
  rcases Nat.lt_or_ge (Config.codec.compress (encodePlane full h (transpose w P))).length
    (Config.codec.compress (encodePlane full w P)).length with hlt | hle
  · rw [chooseTrial_of_lt hlt]; rfl
  · rw [chooseTrial_of_le hle]; rfl

/-- What is left of the decoder once the law of the compressor pair has given the stream back. -/
theorem decodeChannel_compress (stream : List Byte) (h w : Nat) (flag : Bool) :
    decodeChannel (Config.codec.compress stream) h w flag
      = if flag then decodePlane stream w h else decodePlane stream h w := by
  rw [decodeChannel, Config.codec.decompress_compress]
  rfl

/-- Either orientation is lossless, by the round trip of the scanline codec on the plane or on its transpose. -/
theorem decodeChannel_encodeOriented {P : Plane} {h w : Nat} (full transposed : Bool) (hP : isPlane P h w)
    (hh : 1 ≤ h) (hw : 1 ≤ w) :
    ∃ e, decodeChannel (Config.codec.compress (encodeOriented full transposed h w P).stream) h w transposed = .done e
      ∧ decodedPlane transposed h e = P
      ∧ e.cur = (encodeOriented full transposed h w P).stream.length := by
  simp only [decodeChannel_compress]
  cases transposed with
  | false => exact scanlineRoundTrip P h w full hP hh hw
  | true =>
    obtain ⟨e, hdone, hrows, hcur⟩ := scanlineRoundTrip (transpose w P) w h full (isPlane_transpose hP) hw hh
    exact ⟨e, hdone, (congrArg (transpose h) hrows).trans (transpose_transpose hP), hcur⟩

/-- Settles O53: the orientation the flag names is the one the component was made of, and either is lossless. -/
theorem channelRoundTrip : Obligations.ChannelRoundTrip := by
  intro P h w full hP hh hw
  rw [encodeChannel_comp]
  obtain ⟨e, hdone, hplane, hcur⟩ := decodeChannel_encodeOriented full (encodeChannel full h w P).flag hP hh hw
  refine ⟨e, hdone, hplane, hcur.trans ?_⟩
  cases (encodeChannel full h w P).flag <;> rfl

end Sys2Proof.Machine
end

section
/-! SUPPORT. How a step reaches a command: a word written to CMD while IDLE, the engine's turn while BUSY; and what the
invariant says of either. -/

namespace Sys2Proof.Machine

/-! ### What runs -/

theorem fetchCmd_command {s : State} {v : Word} {i : Instr} (hp : s.phase = .idle) (hd : decodeCmd v = .instr i) :
    fetchCmd v s = .run i s := by
  simp only [fetchCmd, hp, hd]

theorem fetchEngine_idle {s : State} (hp : s.phase = .idle) : fetchEngine s = .done s := by
  simp only [fetchEngine, hp]

theorem fetchEngine_busy {s : State} {i : Instr} (hp : s.phase = .busy) (hd : decodeCmd s.lat.word = .instr i) :
    fetchEngine s = .run i s := by
  simp only [fetchEngine, hp, hd]

/-- With nothing in the script the engine has the turn (log 1). -/
theorem step_noEvent {s : State} (hs : s.script = []) : step s = (fetchEngine s).outcome := by
  rw [step_eq, fetchNext, hs]

theorem step_engine {s : State} {es : List Event} (hs : s.script = .engine :: es) :
    step s = (fetchEngine { s with script := es }).outcome := by
  rw [step_eq, fetchNext, hs]
  rfl

/-- Settles O6. -/
theorem stepRunsWrittenCommand : Obligations.StepRunsWrittenCommand := by
  intro s es v i hp hs hd
  rw [step_writeCmd hs, fetchCmd_command (s := { s with script := es }) hp hd, Fetched.outcome]

/-- Settles O8, by who asks for the engine's turn. -/
theorem stepRunsLatchedCommand : Obligations.StepRunsLatchedCommand := by
  intro s
  refine ⟨fun i hp hs hd => ?_, fun i es hp hs hd => ?_, fun es hp hs => ?_⟩
  · rw [step_noEvent hs, fetchEngine_busy hp hd, Fetched.outcome]
  · rw [step_engine hs, fetchEngine_busy (s := { s with script := es }) hp hd, Fetched.outcome]
  · rw [step_engine hs, fetchEngine_idle (s := { s with script := es }) hp, Fetched.outcome]

/-! ### Acceptance -/

/-- Settles O10: exec of a command while IDLE is its acceptance, and the reserved bits of a command word are 0. -/
theorem acceptanceLatchesAndClears : Obligations.AcceptanceLatchesAndClears := by
  intro s v i hp hd
  obtain ⟨hlat, hmem, hhaz, hplat, hscript, hread, -, hdone, hovr, hregs, hbusy, herr⟩ := accept_spec v s
  have hrsv : cmdRsv v = 0 := (decodeCmd_eq_instr.mp hd).1
  refine ⟨accept v s, exec_idle hp hd, ?_, hregs, hdone, hovr, hmem, hhaz, hplat, hscript, hread, ?_, ?_⟩
  · rw [hlat, latchOf, hrsv]
    rfl
  · rw [hlat]
    exact hbusy
  · rw [hlat]
    exact herr

/-! ### Under the invariant -/

/-- Settles O37: the step inverted has no fault. -/
theorem invariantExcludesFaults : Obligations.InvariantExcludesFaults := by
  intro s r h
  rcases step_spec h.busyChecked with ⟨r', hr⟩ | ⟨t, ht, -⟩
  · simp [hr]
  · simp [ht]

/-- A command in progress ends with exactly one of DONE and ERR, both being clear before. -/
theorem Ends.done_eq_not_err {s t : State} (hE : Ends s t) (hnd : s.status.done = false) (hne : s.status.err = false) :
    t.status.done = !t.status.err := by
  rcases hE.how with ⟨hst, -⟩ | ⟨code, info, -, hst, -⟩
  · simp [hst, hne]
  · simp [hst, hnd]

/-- Settles O38: with no event pending the step is the end of the command. -/
theorem busyCommandEnds : Obligations.BusyCommandEnds := by
  intro s h hp hs
  obtain ⟨t, ht, -, hends⟩ := fetchEngine_spec h.busyChecked none
  obtain ⟨hnd, hne⟩ := h.busyFlags hp
  have hE : Ends s t := hends hp
  exact ⟨t, (step_noEvent hs).trans ht, hE.idle, hE.done_eq_not_err hnd hne, hE.script.trans hs⟩

end Sys2Proof.Machine
end

section
/-! SUPPORT. The register window: which register stands at an offset, what a register reads after a write to it or to
another one, and what a host read returns (10_state.md R17, R18, 43_commands.md R144, R145). -/

namespace Sys2Proof.Machine

/-! ### The offsets -/

theorem regAt_eq_some_iff {off : Nat} {r : RegName} : regAt off = some r ↔ regOffset r = off := by
  constructor
  · intro h
    unfold regAt at h
    split at h
    case h_22 => simp at h
    all_goals
      obtain rfl := Option.some.inj h
      rfl
  · rintro rfl
    cases r <;> rfl

theorem regOffset_eq_iff {off : Nat} {q : RegName} (h : regAt off = some q) (r : RegName) :
    regOffset r = off ↔ r = q := by
  rw [← regAt_eq_some_iff, h, Option.some.injEq, eq_comm]

theorem regOffset_ne_of_regAt {off : Nat} (h : regAt off = none) (r : RegName) : regOffset r ≠ off := by
  rw [ne_eq, ← regAt_eq_some_iff, h]
  simp

theorem regAt_eq_none {off : Nat} (h : ∀ r, regOffset r ≠ off) : regAt off = none :=
  Option.eq_none_iff_forall_ne_some.mpr fun r hr => h r (regAt_eq_some_iff.mp hr)

/-! ### Reads -/

/-- What a register reads depends on the registers, the flags and the phase alone. -/
theorem readReg_congr {s t : State} (hr : t.regs = s.regs) (hst : t.status = s.status) (hp : t.phase = s.phase)
    (r : RegName) : readReg r t = readReg r s := by
  cases r
  case status => simp only [readReg, statusWord, busyBit, hst, hp]
  all_goals simp only [readReg, hr]

/-- The script is no register. -/
@[simp] theorem readReg_setScript (es : List Event) (s : State) (r : RegName) :
    readReg r { s with script := es } = readReg r s :=
  readReg_congr rfl rfl rfl r

@[simp] theorem hostReadReg_readData (off : Nat) (s : State) : (hostReadReg off s).readData = readOffset off s := by
  unfold hostReadReg
  split
  · rename_i h
    rw [readOffset, h]
    rfl
  · rfl

theorem readOffset_regOffset (r : RegName) (s : State) : readOffset (regOffset r) s = readReg r s := by
  rw [readOffset, regAt_eq_some_iff.mpr rfl]

theorem readOffset_reserved {off : Nat} (h : ∀ r, regOffset r ≠ off) (s : State) : readOffset off s = 0 := by
  rw [readOffset, regAt_eq_none h]

/-- Settles O57: the step is the host's read, whose own fields are the value and the guards. -/
theorem registerReadHasNoSideEffect : Obligations.RegisterReadHasNoSideEffect := by
  intro s es off hoff h4 hs
  refine ⟨hostReadReg off { s with script := es }, step_hostRead hoff h4 hs, ?_, fun hno => ?_, by simp, by simp,
    by simp, by simp, by simp, by simp, by simp, by simp⟩
  · rintro r rfl
    rw [hostReadReg_readData, readOffset_regOffset, readReg_setScript]
  · rw [hostReadReg_readData, readOffset_reserved hno]

/-! ### Writes -/

/-- The low `n` bits of a word, read back with the bits above them 0, are the word masked. -/
theorem setWidth_extractLsb'_zero (v : Word) {n : Nat} (hn : n ≤ 32) :
    (v.extractLsb' 0 n).setWidth 32 = v &&& BitVec.ofNat 32 (2 ^ n - 1) := by
  have hpow : 2 ^ n ≤ 2 ^ 32 := Nat.pow_le_pow_right (by decide) hn
  have hpos : 0 < 2 ^ n := Nat.two_pow_pos n
  apply BitVec.eq_of_toNat_eq
  rw [BitVec.toNat_and, BitVec.toNat_ofNat, Nat.mod_eq_of_lt (a := 2 ^ n - 1) (by omega),
    Nat.and_two_pow_sub_one_eq_mod, BitVec.toNat_setWidth, BitVec.extractLsb'_toNat, Nat.shiftRight_zero,
    Nat.mod_eq_of_lt ((Nat.mod_lt _ hpos).trans_le hpow)]

/-- A writable register reads what was written to it, a read-only one what it read before (10_state.md R17). -/
theorem readReg_writeReg_same {q : RegName} (hq : q ≠ .status) (v : Word) (s : State) :
    readReg q (writeReg q v s) = (storedValue q v).getD (readReg q s) := by
  cases q
  case irqEn => exact setWidth_extractLsb'_zero v (n := 2) (by decide)
  case scanFlags => exact setWidth_extractLsb'_zero v (n := 4) (by decide)
  case status => exact absurd rfl hq
  all_goals rfl

/-- A write to a register leaves what every other one reads. -/
theorem readReg_writeReg_of_ne {r q : RegName} (h : r ≠ q) (v : Word) (s : State) :
    readReg r (writeReg q v s) = readReg r s := by
  cases q <;> cases r
  case status.status | irqEn.irqEn | scanFlags.scanFlags | width.width | height.height | srcAddr.srcAddr
    | srcLen.srcLen | dstAddr.dstAddr | dstCap.dstCap | predY.predY | predX.predX => exact absurd rfl h
  all_goals rfl

theorem readReg_writeReg {q : RegName} (hq : q ≠ .status) (r : RegName) (v : Word) (s : State) :
    readReg r (writeReg q v s) = if r = q then (storedValue r v).getD (readReg r s) else readReg r s := by
  split
  · subst q
    exact readReg_writeReg_same hq v s
  · exact readReg_writeReg_of_ne ‹_› v s

theorem writeReg_status_of_ne {q : RegName} (hq : q ≠ .status) (v : Word) (s : State) :
    (writeReg q v s).status = s.status := by
  cases q
  case status => exact absurd rfl hq
  all_goals rfl

/-- A write to a register whose writes run no instruction. -/
theorem fetchWrite_register {off : Nat} {q : RegName} (h : regAt off = some q) (hcmd : q ≠ .cmd) (hctrl : q ≠ .ctrl)
    (v : Word) (s : State) : fetchWrite off v s = .done (writeReg q v s) := by
  unfold fetchWrite
  rw [h]
  cases q
  case cmd => exact absurd rfl hcmd
  case ctrl => exact absurd rfl hctrl
  all_goals rfl

theorem fetchWrite_reserved {off : Nat} (h : regAt off = none) (v : Word) (s : State) :
    fetchWrite off v s = .done s := by
  rw [fetchWrite, h]

/-- Settles O55: a reserved offset, where no register stands, or the one register of the offset. -/
theorem registerWriteStores : Obligations.RegisterWriteStores := by
  intro s es off v hoff h4 h08 h0C h10 hs
  have hstep : step s = (fetchWrite off v { s with script := es }).outcome := step_hostWrite hoff h4 hs
  cases hreg : regAt off with
  | none =>
    rw [fetchWrite_reserved hreg] at hstep
    refine ⟨_, hstep, fun r => ?_, rfl, rfl, rfl, rfl, rfl, rfl, rfl, rfl, rfl, rfl⟩
    rw [if_neg (regOffset_ne_of_regAt hreg r), readReg_setScript]
  | some q =>
    have hne : ∀ {p : RegName}, off ≠ regOffset p → q ≠ p := by
      rintro p hp rfl
      exact hp (regAt_eq_some_iff.mp hreg).symm
    rw [fetchWrite_register hreg (hne h0C) (hne h08)] at hstep
    refine ⟨_, hstep, fun r => ?_, writeReg_status_of_ne (hne h10) _ _, by simp, by simp, by simp, by simp, by simp,
      by simp, by simp, by simp, by simp⟩
    simp only [regOffset_eq_iff hreg, readReg_writeReg (hne h10), readReg_setScript]

end Sys2Proof.Machine
end

section
/-! SUPPORT. The completion steps (43_commands.md R134 to R142): how an output is stored, how a decode ends, and each
command where the platform admits its accesses. And the soft reset (R143). -/

namespace Sys2Proof.Machine

/-! ### Ranges -/

/-- A range of admitted accesses lies in the data space, an empty one too where its base is a word. -/
theorem admitted_end_le {p : Platform} {k : Access} {base : Word} {n : Nat} (h : admitted p k base.toNat n) :
    base.toNat + n ≤ Config.dataSpace := by
  have hbase : base.toNat < Config.dataSpace := base.isLt
  cases n with
  | zero => exact hbase.le
  | succ n => exact lt_of_admits (h (base.toNat + n) (mem_addrRange.mpr (by omega)))

/-- What is admitted of a range is admitted of every list of its addresses. -/
theorem refusedOf_eq_nil_of_subset {p : Platform} {k : Access} {base n : Nat} {as : List Nat}
    (h : admitted p k base n) (hsub : ∀ a ∈ as, a ∈ addrRange base n) : refusedOf p k as = [] :=
  refusedOf_eq_nil.mpr fun a ha => h a (hsub a ha)

theorem admitted_mono {p : Platform} {k : Access} {base m n : Nat} (h : admitted p k base n) (hmn : m ≤ n) :
    admitted p k base m := fun a ha => h a (by rw [mem_addrRange] at ha ⊢; omega)

/-- Sample `x` of row `y` in row-major order (20_memory.md R52). -/
theorem rowMajor_lt {h w y x : Nat} (hy : y < h) (hx : x < w) : y * w + x < h * w :=
  calc y * w + x < (y + 1) * w := by rw [Nat.succ_mul]; omega
    _ ≤ h * w := Nat.mul_le_mul_right w hy

/-! ### exec while BUSY: the completion step -/

section
variable {chan : BitVec 2} {fset orient : Bool} {k : BitVec 4} {s : State} (hp : s.phase = .busy)
include hp

theorem exec_nop_busy : exec (.nop chan fset orient k) s = .next (complete s) := by
  simp only [exec, execNop, hp]

theorem exec_encp_busy : exec (.encp chan fset orient k) s = .next (completeEncp fset orient s) := by
  simp only [exec, execEncp, hp]

theorem exec_decp_busy : exec (.decp chan fset orient k) s = .next (completeDecp orient s) := by
  simp only [exec, execDecp, hp]

theorem exec_encc_busy : exec (.encc chan fset orient k) s = .next (completeEncc chan fset s) := by
  simp only [exec, execEncc, hp]

theorem exec_decc_busy : exec (.decc chan fset orient k) s = .next (completeDecc s) := by
  simp only [exec, execDecc, hp]

theorem exec_pred_busy {p : Pred} (hk : predOfId k.toNat = some p) :
    exec (.pred chan fset orient k) s = .next (completePred p s) := by
  simp only [exec, execPred, hp, hk]

theorem exec_cost_busy {r : List Byte} (hk : costRow k.toNat s = some r) :
    exec (.cost chan fset orient k) s = .next (completeCost r s) := by
  simp only [exec, execCost, hp, hk]

end

/-! ### The two ends of a command -/

theorem keeps_refl (s : State) : s.keeps s := ⟨rfl, rfl, rfl, rfl, rfl, rfl⟩

/-- complete() after writes to the result registers and to memory. -/
theorem endsDone_complete {s u : State} (hst : u.status = s.status) (hk : s.keeps u) : s.endsDone (complete u) :=
  ⟨rfl, by rw [complete_status, hst], hk⟩

theorem endsError_raiseDynamic {s : State} (hw : Memory.wf s.mem = true) (code : ErrCode) (info : Word) :
    s.endsError (raiseDynamic code info s) code info :=
  ⟨rfl, rfl, rfl, keeps_refl s, fun _ ha => raiseDynamic_read hw code info ha⟩

/-- ERR_BUS reports one of the refused addresses (60_exceptions.md R152). -/
theorem endsError_raiseBus {s : State} (hw : Memory.wf s.mem = true) {as : List Nat} (h : as ≠ []) :
    ∃ a ∈ as, s.endsError (raiseBus as s) .bus (BitVec.ofNat 32 a) :=
  ⟨_, pickRefused_mem h, endsError_raiseDynamic hw _ _⟩

/-! ### Outputs -/

/-- A byte string written to memory is stored. -/
theorem stored_writeBytes {s t : State} {dst : Nat} {bs : List Byte} (hw : Memory.wf s.mem = true)
    (hend : dst + bs.length ≤ Config.dataSpace) (ht : t.mem = Memory.writeBytes s.mem dst bs) :
    stored s t dst bs := fun a => by
  rw [ht, Memory.read_writeBytes a hw hend]

/-- complete() after `R` on the registers: how a command whose output is stored ends. -/
def completeWith (R : Regs → Regs) (s : State) : State := complete { s with regs := R s.regs }

/-- An output whose bytes are admitted is stored, and the command ends with DONE, whatever the hidden state. -/
theorem storeOutput_ends {s : State} {bs : List Byte} (R : Regs → Regs) (e : Engine) (hw : Memory.wf s.mem = true)
    (h : admitted s.platform .write s.lat.dstAddr.toNat bs.length) :
    let t := storeOutput bs (completeWith R) { s with eng := e }
    s.endsDone t ∧ t.regs = R s.regs ∧ stored s t s.lat.dstAddr.toNat bs := by
  rw [storeOutput_admitted (s := { s with eng := e }) _ h]
  exact ⟨endsDone_complete rfl (keeps_refl s), rfl, stored_writeBytes hw (admitted_end_le h) rfl⟩

/-- An encoder's output: stored where it fits, ERR_DST_CAP with its length where it does not (43_commands.md R137,
R139). -/
theorem storeEncoded_ends {s : State} (bs : List Byte) (R : Regs → Regs) (e : Engine) (hw : Memory.wf s.mem = true)
    (h : admitted s.platform .write s.lat.dstAddr.toNat s.lat.dstCap.toNat) :
    let t := storeEncoded bs (completeWith R) { s with eng := e }
    (bs.length ≤ s.lat.dstCap.toNat → s.endsDone t ∧ t.regs = R s.regs ∧ stored s t s.lat.dstAddr.toNat bs)
      ∧ (s.lat.dstCap.toNat < bs.length → s.endsError t .dstCap (sat32 bs.length)) := by
  simp only [storeEncoded]
  split
  · rename_i hlong
    exact ⟨fun hfit => absurd hlong (Nat.not_lt.mpr hfit),
      fun _ => endsError_raiseDynamic (s := { s with eng := e }) hw _ _⟩
  · rename_i hfit
    exact ⟨fun _ => storeOutput_ends R e hw (admitted_mono h (Nat.not_lt.mp hfit)), fun hlong => absurd hlong hfit⟩

/-! ### NOP, ENCP and ENCC -/

/-- Settles O14: the completion step of NOP is complete() and nothing else. -/
theorem nopCompletes : Obligations.NopCompletes := by
  intro chan fset orient k s hp
  exact ⟨complete s, exec_nop_busy hp, endsDone_complete rfl (keeps_refl s), rfl, rfl⟩

/-- ENCP with its plane admitted: the encoder's stream is stored, OUT_LEN its length. -/
theorem completeEncp_admitted {s : State}
    (h : admitted s.platform .read s.lat.srcAddr.toNat (s.lat.height.toNat * s.lat.width.toNat)) (fset orient : Bool) :
    let e := encodeOriented fset orient s.lat.height.toNat s.lat.width.toNat (sourcePlane s)
    completeEncp fset orient s
      = storeEncoded e.stream (completeWith fun r => { r with outLen := BitVec.ofNat 32 e.stream.length })
          { s with eng := e } := by
  rw [completeEncp, planeAddrs, refusedOf_eq_nil.mpr h]
  rfl

/-- The stream of one orientation, as ENCP's rule names it (43_commands.md R137). -/
theorem encodeOriented_stream (full transposed : Bool) (h w : Nat) (P : Plane) :
    (encodeOriented full transposed h w P).stream
      = if transposed then encodePlane full h (transpose w P) else encodePlane full w P := by
  cases transposed <;> rfl

/-- Settles O15: the stream of the orientation asked for, through the encoders' store. -/
theorem encpCompletes : Obligations.EncpCompletes := by
  rintro chan fset orient k s bs hp hw hread hwrite rfl
  rw [← encodeOriented_stream]
  refine ⟨completeEncp fset orient s, exec_encp_busy hp, ?_⟩
  rw [completeEncp_admitted hread]
  exact storeEncoded_ends _ _ _ hw hwrite

/-- The registers ENCC writes (43_commands.md R139). -/
def channelRegs (chan : BitVec 2) (c : ChannelCode) (r : Regs) : Regs :=
  { r with
    outLen := BitVec.ofNat 32 c.comp.length, lenRm := sat32 c.lenRm, lenTr := sat32 c.lenTr
    scanFlags := setScanFlag r.scanFlags chan c.flag }

/-- ENCC with its plane admitted: the component is stored, the lengths and the flag written. -/
theorem completeEncc_admitted {s : State}
    (h : admitted s.platform .read s.lat.srcAddr.toNat (s.lat.height.toNat * s.lat.width.toNat)) (chan : BitVec 2)
    (fset : Bool) :
    let c := encodeChannel fset s.lat.height.toNat s.lat.width.toNat (sourcePlane s)
    completeEncc chan fset s
      = storeEncoded c.comp (completeWith (channelRegs chan c))
          { s with eng := runTrials fset s.lat.height.toNat s.lat.width.toNat (sourcePlane s) } := by
  rw [completeEncc, planeAddrs, refusedOf_eq_nil.mpr h]
  rfl

/-- One flag is set, the three others stay (43_commands.md R139). -/
theorem getLsbD_setScanFlag (flags : BitVec 4) (c : BitVec 2) (flag : Bool) (b : Fin 4) :
    (setScanFlag flags c flag).getLsbD b = if b.val = c.toNat then flag else flags.getLsbD b := by
  revert flags c flag b
  decide

/-- Settles O17: the component EncodeChannel keeps, through the encoders' store. -/
theorem enccCompletes : Obligations.EnccCompletes := by
  rintro chan fset orient k s c hp hw hread hwrite rfl
  refine ⟨completeEncc chan fset s, exec_encc_busy hp, ?_⟩
  rw [completeEncc_admitted hread]
  obtain ⟨hfit, hlong⟩ := storeEncoded_ends _ _ _ hw hwrite
  refine ⟨fun hle => ?_, hlong⟩
  obtain ⟨hdone, hregs, hstored⟩ := hfit hle
  refine ⟨hdone, hstored, ?_, fun b => ?_⟩
  · rw [hregs]
    rfl
  · rw [hregs]
    exact getLsbD_setScanFlag _ _ _ b

/-! ### DECP and DECC -/

/-- A plane stored as its bytes lies row-major (20_memory.md R52). -/
theorem storedPlane_of_stored {s t : State} {dst h w : Nat} {P : Plane} (hP : isPlane P h w)
    (hst : stored s t dst (planeBytes P)) : storedPlane s t dst h w P := by
  obtain ⟨rfl, hrow⟩ := hP
  have hlen : (planeBytes P).length = P.length * w := length_flatten_rows P hrow
  refine ⟨fun y hy x hx => ?_, fun a ha => ?_⟩
  · have hin := rowMajor_lt hy hx
    rw [hst, hlen, if_pos (by omega), Nat.add_assoc, Nat.add_sub_cancel_left]
    exact getD_flatten_rows P y x hrow hy hx
  · rw [hst, hlen, if_neg ha]

/-- How a decode ends, for one that gives planes of the latched shape and stops only at offsets there are. -/
theorem finishDecode_ends {s : State} {transposed : Bool} {d : Decoding} (hw : Memory.wf s.mem = true)
    (hwrite : admitted s.platform .write s.lat.dstAddr.toNat (s.lat.height.toNat * s.lat.width.toNat))
    (hshape : ∀ e, d = .done e →
      isPlane (decodedPlane transposed s.lat.height.toNat e) s.lat.height.toNat s.lat.width.toNat)
    (hrefused : ∀ os, d = .refusedAt os → os ≠ []) : decodeEnds s (finishDecode transposed d s) transposed d := by
  refine ⟨?_, ?_, ?_⟩
  · rintro e rfl
    obtain ⟨hlen, hrow⟩ := hshape e rfl
    have hbytes : (planeBytes (decodedPlane transposed s.lat.height.toNat e)).length
        = s.lat.height.toNat * s.lat.width.toNat := by rw [planeBytes, length_flatten_rows _ hrow, hlen]
    obtain ⟨hdone, hregs, hstored⟩ := storeOutput_ends
      (fun r => { r with
        outLen := BitVec.ofNat 32 (s.lat.width.toNat * s.lat.height.toNat), inUsed := BitVec.ofNat 32 e.cur })
      e hw (hbytes ▸ hwrite)
    exact ⟨hdone, hregs, storedPlane_of_stored ⟨hlen, hrow⟩ hstored⟩
  · rintro code info rfl
    exact endsError_raiseDynamic hw code info
  · rintro os rfl
    obtain ⟨a, ha, hE⟩ := endsError_raiseBus hw (as := os.map fun o => s.lat.srcAddr.toNat + o)
      (by simpa using hrefused os rfl)
    obtain ⟨o, ho, rfl⟩ := List.mem_map.mp ha
    exact ⟨o, ho, hE⟩

/-- Settles O16, by the three ends of the decode. -/
theorem decpCompletes : Obligations.DecpCompletes := by
  intro chan fset orient k s hp hw hwrite
  exact ⟨completeDecp orient s, exec_decp_busy hp,
    finishDecode_ends hw hwrite (fun _ => decodedPlane_shape) (fun _ => decodeOriented_refused_ne)⟩

theorem completeDecc_admitted {s : State} (h : admitted s.platform .read s.lat.srcAddr.toNat s.lat.srcLen.toNat) :
    completeDecc s = finishDecode s.lat.flag
      (decodeChannel (Memory.readBytes s.mem s.lat.srcAddr.toNat s.lat.srcLen.toNat) s.lat.height.toNat
        s.lat.width.toNat s.lat.flag) s := by
  rw [completeDecc, refusedOf_eq_nil.mpr h]

theorem decodeChannel_fails {comp : List Byte} (h : Config.codec.decompress comp = none) (height width : Nat)
    (flag : Bool) : decodeChannel comp height width flag = .failed .decomp 0 := by
  rw [decodeChannel, h]

/-- Where a channel's decode does not fail, it is the decode of the decompressed stream. -/
theorem decodeChannel_cases (comp : List Byte) (h w : Nat) (flag : Bool) :
    decodeChannel comp h w flag = .failed .decomp 0
      ∨ ∃ bytes : List Byte,
          decodeChannel comp h w flag = decodeOriented bytes.length (readList bytes) flag h w := by
  cases hc : Config.codec.decompress comp with
  | none => exact .inl (decodeChannel_fails hc h w flag)
  | some bytes => exact .inr ⟨bytes, by rw [decodeChannel, hc]⟩

theorem decodeChannel_shape {comp : List Byte} {h w : Nat} {flag : Bool} {e : Engine}
    (hd : decodeChannel comp h w flag = .done e) : isPlane (decodedPlane flag h e) h w := by
  rcases decodeChannel_cases comp h w flag with hfail | ⟨bytes, heq⟩
  · simp [hfail] at hd
  · exact decodedPlane_shape (heq ▸ hd)

theorem decodeChannel_refused_ne {comp : List Byte} {h w : Nat} {flag : Bool} {os : List Nat}
    (hd : decodeChannel comp h w flag = .refusedAt os) : os ≠ [] := by
  rcases decodeChannel_cases comp h w flag with hfail | ⟨bytes, heq⟩
  · simp [hfail] at hd
  · exact decodeOriented_refused_ne (heq ▸ hd)

/-- Settles O18: a decode like DECP's, of the decompressed source region. -/
theorem deccCompletes : Obligations.DeccCompletes := by
  rintro chan fset orient k s comp hp hw hread hwrite rfl
  refine ⟨completeDecc s, exec_decc_busy hp, ?_⟩
  rw [completeDecc_admitted hread]
  obtain ⟨hdone, hfailed, hrefused⟩ := finishDecode_ends hw hwrite
    (fun _ => decodeChannel_shape (comp := Memory.readBytes s.mem s.lat.srcAddr.toNat s.lat.srcLen.toNat))
    (fun _ => decodeChannel_refused_ne)
  exact ⟨⟨hdone, hfailed, hrefused⟩, fun hnone => hfailed _ _ (decodeChannel_fails hnone _ _ _)⟩

/-! ### PRED and COST -/

/-- Row `y` of the plane in memory. -/
theorem getD_readPlane (m : Memory) (base w : Nat) {h y : Nat} (hy : y < h) :
    (readPlane m base h w).getD y [] = readRow m base w y := getD_map_range _ _ hy

theorem getD_readRow (m : Memory) (base y : Nat) {w x : Nat} (hx : x < w) :
    (readRow m base w y).getD x 0 = Memory.read m (base + y * w + x) := getD_map_range _ _ hx

/-- A neighbour read where it lies in memory is the plane's. -/
theorem memSample_eq_planeSample (m : Memory) (base : Nat) {h w y x : Nat} (hy : y < h) (hx : x < w) (dy dx : Nat) :
    memSample m base w y x dy dx = planeSample (readPlane m base h w) y x dy dx := by
  rw [memSample, planeSample, getD_readPlane m base w (by omega), getD_readRow m base _ (by omega)]

theorem memNeighbours_eq_planeNeighbours (m : Memory) (base : Nat) {h w y x : Nat} (hy : y < h) (hx : x < w) :
    memNeighbours m base w y x = planeNeighbours (readPlane m base h w) y x := by
  simp only [memNeighbours, planeNeighbours, memSample_eq_planeSample m base hy hx]

/-- Sample `x` of row `y` lies in the plane. -/
theorem sampleAddr_mem_plane (base : Nat) {h w y x : Nat} (hy : y < h) (hx : x < w) :
    base + y * w + x ∈ addrRange base (h * w) := by
  have hin := rowMajor_lt hy hx
  rw [mem_addrRange]
  omega

theorem neighbourAddr_subset_plane {base h w y x dy dx : Nat} (hy : y < h) (hx : x < w) {a : Nat}
    (ha : a ∈ neighbourAddr base w y x dy dx) : a ∈ addrRange base (h * w) := by
  unfold neighbourAddr at ha
  split at ha
  · obtain rfl := List.mem_singleton.mp ha
    exact sampleAddr_mem_plane base (by omega) (by omega)
  · simp at ha

theorem neighbourAddrs_subset_plane {base h w y x : Nat} (hy : y < h) (hx : x < w) {a : Nat}
    (ha : a ∈ neighbourAddrs base w y x) : a ∈ addrRange base (h * w) := by
  simp only [neighbourAddrs, List.mem_append] at ha
  rcases ha with (((ha | ha) | ha) | ha) | ha <;> exact neighbourAddr_subset_plane hy hx ha

/-- Rows y-2 to y lie in the plane. -/
theorem costAddrs_subset_plane {base h w y : Nat} (hy : y < h) {a : Nat} (ha : a ∈ costAddrs base w y) :
    a ∈ addrRange base (h * w) := by
  have hrows : (y - 2) * w + (min y 2 + 1) * w ≤ h * w := by
    rw [← Nat.add_mul]
    exact Nat.mul_le_mul_right w (by omega)
  rw [costAddrs, mem_addrRange] at ha
  rw [mem_addrRange]
  omega

theorem completePred_admitted {s : State} (hy : s.lat.predY.toNat < s.lat.height.toNat)
    (hx : s.lat.predX.toNat < s.lat.width.toNat)
    (h : admitted s.platform .read s.lat.srcAddr.toNat (s.lat.height.toNat * s.lat.width.toNat)) (p : Pred) :
    completePred p s = completeResult
      (BitVec.ofInt 32 (predict p (planeNeighbours (sourcePlane s) s.lat.predY.toNat s.lat.predX.toNat))) s := by
  rw [completePred, refusedOf_eq_nil_of_subset h fun _ => neighbourAddrs_subset_plane hy hx, sourcePlane,
    ← memNeighbours_eq_planeNeighbours _ _ hy hx]

theorem completeResult_ends (v : Word) (s : State) :
    s.endsDone (completeResult v s) ∧ (completeResult v s).regs = { s.regs with result := v }
      ∧ (completeResult v s).mem = s.mem :=
  ⟨endsDone_complete rfl (keeps_refl s), rfl, rfl⟩

/-- The predictors in the order of their ids (00_scope.md R2). -/
theorem predOfId_table {k : Nat} (h : k ≤ 6) :
    ∃ p, predOfId k = some p ∧ (k = 0 → p = .none) ∧ (k = 1 → p = .left) ∧ (k = 2 → p = .up)
      ∧ (k = 3 → p = .average) ∧ (k = 4 → p = .paeth) ∧ (k = 5 → p = .linear) ∧ (k = 6 → p = .knight) := by
  interval_cases k <;> exact ⟨_, rfl, by decide⟩

/-- Settles O19: the neighbours PRED reads in memory are the plane's, and all admitted. -/
theorem predCompletes : Obligations.PredCompletes := by
  intro chan fset orient k s hp hk hy hx hread
  obtain ⟨p, hpred, h0, h1, h2, h3, h4, h5, h6⟩ := predOfId_table hk
  refine ⟨completePred p s, p, exec_pred_busy hp hpred, hpred, ?_⟩
  rw [completePred_admitted hy hx hread]
  obtain ⟨hdone, hregs, hmem⟩ := completeResult_ends
    (BitVec.ofInt 32 (predict p (planeNeighbours (sourcePlane s) s.lat.predY.toNat s.lat.predX.toNat))) s
  exact ⟨hdone, h0, h1, h2, h3, h4, h5, h6, hregs, hmem⟩

/-- The rows COST reads in memory are the plane's history rows. -/
theorem rowAbove_eq_historyRow (m : Memory) (base w : Nat) {h y : Nat} (hy : y < h) (d : Nat) :
    rowAbove m base w y d = historyRow (readPlane m base h w) w y d := by
  rw [rowAbove, historyRow, getD_readPlane m base w (by omega)]

theorem costRow_eq_candidateRow {s : State} (hy : s.lat.predY.toNat < s.lat.height.toNat) (k : Nat) :
    costRow k s = candidateRow k ((sourcePlane s).getD s.lat.predY.toNat [])
      (historyRow (sourcePlane s) s.lat.width.toNat s.lat.predY.toNat 1)
      (historyRow (sourcePlane s) s.lat.width.toNat s.lat.predY.toNat 2) := by
  simp only [costRow, rowAbove_eq_historyRow _ _ _ hy, historyRow_zero, sourcePlane]

theorem completeCost_admitted {s : State} (hy : s.lat.predY.toNat < s.lat.height.toNat)
    (h : admitted s.platform .read s.lat.srcAddr.toNat (s.lat.height.toNat * s.lat.width.toNat)) (r : List Byte) :
    completeCost r s = completeResult (BitVec.ofNat 32 (rowCost r)) s := by
  rw [completeCost, refusedOf_eq_nil_of_subset h fun _ => costAddrs_subset_plane hy]

theorem exists_candidateRow {k : Nat} (h : k ≤ 7) (row p q : List Byte) : ∃ r, candidateRow k row p q = some r :=
  ⟨_, List.getElem?_eq_getElem (by rw [length_candidateRows]; omega)⟩

/-- Settles O20: the rows COST reads in memory are the plane's history rows, and all admitted. -/
theorem costCompletes : Obligations.CostCompletes := by
  rintro chan fset orient k s P w y hp hk rfl rfl rfl hy hread
  obtain ⟨r, hr⟩ := exists_candidateRow hk ((sourcePlane s).getD s.lat.predY.toNat [])
    (historyRow (sourcePlane s) s.lat.width.toNat s.lat.predY.toNat 1)
    (historyRow (sourcePlane s) s.lat.width.toNat s.lat.predY.toNat 2)
  have hrow : costRow k.toNat s = some r := (costRow_eq_candidateRow hy k.toNat).trans hr
  refine ⟨completeCost r s, r, exec_cost_busy hp hrow, hr, ?_⟩
  rw [completeCost_admitted hy hread, rowCost_eq_absSum]
  exact completeResult_ends _ s

/-! ### SRST -/

/-- Settles O21: the registers, flags and phase are those of reset, and only an abandoned command touches memory. -/
theorem softResetCompletes : Obligations.SoftResetCompletes := by
  intro ignored s
  refine ⟨softReset s, rfl, readReg_congr rfl rfl rfl, rfl, rfl, by simp, by simp, by simp, by simp, fun hp => ?_,
    fun hw a ha => ?_⟩
  · simp only [softReset_mem, abandon, hp]
  · exact read_abandon_outside hw fun ⟨_, _, hin⟩ => by simp [ha] at hin

end Sys2Proof.Machine
end

section
/-! SUPPORT. The exceptions: the static checks as the first of a list of causes, the CMD write that is dropped, the
error end under the invariant, and the ends of a refused access (60_exceptions.md R148 to R155). -/

namespace Sys2Proof.Machine

/-! ### The CMD write while BUSY -/

theorem fetchCmd_busy {s : State} (hp : s.phase = .busy) (v : Word) : fetchCmd v s = .done (overrun s) := by
  simp only [fetchCmd, hp]

/-- Settles O13: the step is `overrun`. -/
theorem cmdWriteWhileBusyIsDropped : Obligations.CmdWriteWhileBusyIsDropped := by
  intro s es v hp hs
  rw [step_writeCmd hs, fetchCmd_busy (s := { s with script := es }) hp, Fetched.outcome]
  rfl

/-! ### The error end -/

/-- An end with ERR of a command whose flags were clear is the error end: only ERR, ERRCODE and ERR_INFO are
written. -/
theorem Ends.of_err {s t : State} (hE : Ends s t) (hne : s.status.err = false) (ht : t.status.err = true) :
    ∃ code info, code ≠ .none ∧ t.status = { s.status with err := true, errcode := code }
      ∧ t.regs = { s.regs with errInfo := info } := by
  rcases hE.how with ⟨hst, -⟩ | herr
  · simp [hst, hne] at ht
  · exact herr

/-- Settles O34: the engine's turn ends the command, and the invariant has its flags clear and its results 0. -/
theorem errorEndIsPrecise : Obligations.ErrorEndIsPrecise := by
  intro s t h hp hs hst ht
  obtain ⟨u, hu, -, hends⟩ := fetchEngine_spec h.busyChecked none
  obtain rfl : u = t := by simpa [step_noEvent hs, hu] using hst
  have hE : Ends s u := hends hp
  obtain ⟨hnd, hne⟩ := h.busyFlags hp
  obtain ⟨code, info, hcode, hstatus, hregs⟩ := hE.of_err hne ht
  refine ⟨hE.idle, ?_, ?_, ?_, ?_, ?_⟩
  · rw [hstatus, ← hnd]
  · rw [hstatus]
  · rw [hstatus]
    exact hcode
  · rw [hregs]
  · rw [hregs]
    exact h.busyResults hp

/-! ### When the static checks pass -/

theorem hasDst_iff {l : Latch} : l.hasDst = true ↔ 1 ≤ l.op.toNat ∧ l.op.toNat ≤ 4 := by
  simp [Latch.hasDst]

theorem planeSource_iff {l : Latch} :
    l.planeSource = true ↔ l.op.toNat = 1 ∨ l.op.toNat = 3 ∨ l.op.toNat = 5 ∨ l.op.toNat = 6 := by
  simp [Latch.planeSource, or_assoc]

theorem planeResult_iff {l : Latch} : l.planeResult = true ↔ l.op.toNat = 2 ∨ l.op.toNat = 4 := by
  simp [Latch.planeResult]

theorem regionsOverlap_eq_false {r q : Region} :
    regionsOverlap r q = false ↔ ∀ a, ¬ (inRegion r a = true ∧ inRegion q a = true) := by
  rw [← Bool.not_eq_true, regionsOverlap_iff, not_exists]

/-- No static error, check by check (60_exceptions.md R150). -/
theorem staticCheck_none (p : Platform) (l : Latch) : staticCheck p l = none ↔
    l.rsv = 0 ∧ l.op.toNat < 7 ∧ (l.op.toNat ≠ 0 →
      (1 ≤ l.width.toNat ∧ l.width.toNat ≤ maxDim p) ∧ (1 ≤ l.height.toNat ∧ l.height.toNat ≤ maxDim p)
      ∧ argCheck l = none ∧ regionCheck l = none) := by
  unfold staticCheck
  simp only [ite_eq_iff, reduceCtorEq, and_false, false_or, and_true, Bool.or_eq_true, decide_eq_true_eq]
  refine and_congr not_not (and_congr not_le ?_)
  by_cases h0 : l.op.toNat = 0
  · simp [h0]
  · simp only [h0, not_false_eq_true, true_and, false_or, ne_eq, forall_const]
    refine and_congr (by omega) (and_congr (by omega) ?_)
    cases argCheck l <;> simp

/-- Settles O11: the checks one by one, those of a command's own kind by its OP. -/
theorem staticCheckPassesExactly : Obligations.StaticCheckPassesExactly := by
  intro p l
  rw [staticCheck_none, argCheck_none, regionCheck_none, hasDst_iff, planeSource_iff, planeResult_iff,
    regionsOverlap_eq_false]
  refine and_congr_right fun _ => and_congr_right fun _ => forall_congr' fun hop => ?_
  have h1 : 1 ≤ l.op.toNat := Nat.one_le_iff_ne_zero.mpr hop
  simp only [h1, true_and, and_assoc]

/-! ### The first cause -/

/-- The answer `o` is the report of the first of the rows whose condition holds, and none where all fail. -/
def Reports (o : Option (ErrCode × Word)) (rows : List (Prop × ErrCode × Word)) : Prop :=
  ∀ e, o = some e ↔ firstCause e rows

theorem reports_nil : Reports none [] := fun _ => by simp [firstCause]

/-- A row whose condition fails is passed over. -/
theorem Reports.skip {o : Option (ErrCode × Word)} {c : Prop} {r : ErrCode × Word}
    {rows : List (Prop × ErrCode × Word)} (hc : ¬ c) (h : Reports o rows) : Reports o ((c, r) :: rows) :=
  fun e => by simp [firstCause, hc, h e]

/-- A row whose condition holds is reported, whatever follows. -/
theorem reports_some {c : Prop} (hc : c) (r : ErrCode × Word) (rows : List (Prop × ErrCode × Word)) :
    Reports (some r) ((c, r) :: rows) := fun e => by simp [firstCause, hc, eq_comm]

/-- Where every row fails nothing is reported. -/
theorem reports_none {rows : List (Prop × ErrCode × Word)} (h : ∀ row ∈ rows, ¬ row.1) : Reports none rows := by
  induction rows with
  | nil => exact reports_nil
  | cons row rows ih =>
    rw [List.forall_mem_cons] at h
    exact (ih h.2).skip h.1

/-- A check is a row. -/
theorem Reports.check {o : Option (ErrCode × Word)} {b c : Prop} [Decidable b] {r : ErrCode × Word}
    {rows : List (Prop × ErrCode × Word)} (hbc : b ↔ c) (h : Reports o rows) :
    Reports (if b then some r else o) ((c, r) :: rows) := by
  split
  · exact reports_some (hbc.mp ‹_›) r rows
  · exact h.skip (mt hbc.mpr ‹_›)

/-- Checks that go on with others are the rows of both. -/
theorem Reports.append {o o' : Option (ErrCode × Word)} {rows' : List (Prop × ErrCode × Word)} (h' : Reports o' rows') :
    ∀ {rows : List (Prop × ErrCode × Word)}, Reports o rows → Reports (o.or o') (rows ++ rows')
  | [], h => by
    obtain rfl : o = none := Option.eq_none_iff_forall_ne_some.mpr fun e => (h e).mp
    exact h'
  | (c, r) :: rows, h => by
    by_cases hc : c
    · obtain rfl : o = some r := (h r).mpr (.inl ⟨hc, rfl⟩)
      exact reports_some hc r _
    · exact (h'.append (rows := rows) fun e => by simpa [firstCause, hc] using h e).skip hc

/-- The checks of ERR_ARG are rows 5 to 7. -/
theorem reports_argCheck (p : Platform) (l : Latch) :
    Reports (argCheck l) (((staticCauses p l).drop 4).take 3) := by
  unfold argCheck
  split
  · exact .check (by omega) (.check (by omega) (.check (by omega) reports_nil))
  · split
    · exact .check (by omega) (.check (by omega) (.skip (by omega) reports_nil))
    · exact .skip (by omega) (.skip (by omega) (.skip (by omega) reports_nil))

/-- The checks of the regions are rows 8 to 12, for a command that has regions. -/
theorem reports_regionCheck (p : Platform) {l : Latch} (hop : l.op.toNat ≠ 0) :
    Reports (regionCheck l) ((staticCauses p l).drop 7) := by
  unfold regionCheck
  refine .check ?_ (.check ?_ (.check ?_ (.check ?_ (.check ?_ reports_nil))))
  · exact (and_iff_right hop).symm
  · rw [Bool.and_eq_true, hasDst_iff, decide_eq_true_eq]
    rfl
  · rw [Bool.and_eq_true, hasDst_iff, regionsOverlap_iff]
  · rw [Bool.and_eq_true, planeSource_iff, decide_eq_true_eq]
  · rw [Bool.and_eq_true, planeResult_iff, decide_eq_true_eq]

/-- The static checks are the twelve rows; for NOP, which only the first two can reject, no later one holds. -/
theorem reports_staticCheck (p : Platform) (l : Latch) : Reports (staticCheck p l) (staticCauses p l) := by
  unfold staticCheck
  refine .check Iff.rfl (.check Iff.rfl ?_)
  split
  next h0 => exact reports_none (by simp [h0])
  next h0 =>
    have hrest := (reports_regionCheck p h0).append (reports_argCheck p l)
    refine .check (by simp [h0]) (.check (by simp [h0]) ?_)
    cases harg : argCheck l <;> rw [harg] at hrest <;> exact hrest

/-- Where ERR_SRC or ERR_DST_CAP is reported the dimensions passed, so W * H is exact in 32 bits. -/
theorem toNat_of_firstCause {p : Platform} {l : Latch} {code : ErrCode} {info : Word}
    (h : firstCause (code, info) (staticCauses p l)) (hc : code = .src ∨ code = .dstCap) :
    info.toNat = l.width.toNat * l.height.toNat := by
  rcases hc with rfl | rfl <;>
    simp only [staticCauses, firstCause, Prod.mk.injEq, reduceCtorEq, false_and, and_false, false_or, or_false] at h
  · obtain ⟨-, -, hw, hh, -, -, -, -, -, -, ⟨hop, -⟩, -, rfl⟩ := h
    exact toNat_planeBytes p l (by omega) (by omega)
  · obtain ⟨-, -, hw, hh, -, -, -, -, -, -, -, ⟨hop, -⟩, -, rfl⟩ := h
    exact toNat_planeBytes p l (by omega) (by omega)

/-- Settles O12: the checks are the rows, in their order. -/
theorem staticErrorInformation : Obligations.StaticErrorInformation := fun p l _ _ =>
  ⟨reports_staticCheck p l _, fun h => toNat_of_firstCause ((reports_staticCheck p l _).mp h)⟩

/-! ### Refused accesses -/

/-- ERR_BUS in a command with a destination, whatever the hidden state then is. -/
theorem refusalEnds_of_raiseBus {i : Instr} {s : State} {k : Access} {as : List Nat} (hw : Memory.wf s.mem = true)
    (h : refusedOf s.platform k as ≠ [] →
      ∃ e, exec i s = .next (raiseBus (refusedOf s.platform k as) { s with eng := e })) : refusalEnds i s k as := by
  intro hne
  obtain ⟨e, he⟩ := h hne
  obtain ⟨a, ha, hE⟩ := endsError_raiseBus (s := { s with eng := e }) hw hne
  exact ⟨_, a, he, ha, hE⟩

/-- ERR_BUS in a command without a destination touches no memory at all (20_memory.md R55). -/
theorem refusalEnds_of_raiseBusNoDst {i : Instr} {s : State} {k : Access} {as : List Nat}
    (h : refusedOf s.platform k as ≠ [] → exec i s = .next (raiseBusNoDst (refusedOf s.platform k as) s)) :
    refusalEnds i s k as := fun hne =>
  ⟨_, _, h hne, pickRefused_mem hne, rfl, rfl, rfl, keeps_refl s, fun _ _ => rfl⟩

theorem completeEncp_refused {s : State} (h : refusedOf s.platform .read (planeAddrs s.lat) ≠ []) (fset orient : Bool) :
    completeEncp fset orient s = raiseBus (refusedOf s.platform .read (planeAddrs s.lat)) s := by
  obtain ⟨a, as, has⟩ := List.exists_cons_of_ne_nil h
  simp only [completeEncp, has]

theorem completeEncc_refused {s : State} (h : refusedOf s.platform .read (planeAddrs s.lat) ≠ []) (chan : BitVec 2)
    (fset : Bool) : completeEncc chan fset s = raiseBus (refusedOf s.platform .read (planeAddrs s.lat)) s := by
  obtain ⟨a, as, has⟩ := List.exists_cons_of_ne_nil h
  simp only [completeEncc, has]

theorem completeDecc_refused {s : State}
    (h : refusedOf s.platform .read (addrRange s.lat.srcAddr.toNat s.lat.srcLen.toNat) ≠ []) :
    completeDecc s
      = raiseBus (refusedOf s.platform .read (addrRange s.lat.srcAddr.toNat s.lat.srcLen.toNat)) s := by
  obtain ⟨a, as, has⟩ := List.exists_cons_of_ne_nil h
  simp only [completeDecc, has]

theorem completePred_refused {s : State}
    (h : refusedOf s.platform .read
      (neighbourAddrs s.lat.srcAddr.toNat s.lat.width.toNat s.lat.predY.toNat s.lat.predX.toNat) ≠ []) (p : Pred) :
    completePred p s = raiseBusNoDst (refusedOf s.platform .read
      (neighbourAddrs s.lat.srcAddr.toNat s.lat.width.toNat s.lat.predY.toNat s.lat.predX.toNat)) s := by
  obtain ⟨a, as, has⟩ := List.exists_cons_of_ne_nil h
  simp only [completePred, has]

theorem completeCost_refused {s : State}
    (h : refusedOf s.platform .read (costAddrs s.lat.srcAddr.toNat s.lat.width.toNat s.lat.predY.toNat) ≠ [])
    (r : List Byte) :
    completeCost r s = raiseBusNoDst
      (refusedOf s.platform .read (costAddrs s.lat.srcAddr.toNat s.lat.width.toNat s.lat.predY.toNat)) s := by
  obtain ⟨a, as, has⟩ := List.exists_cons_of_ne_nil h
  simp only [completeCost, has]

theorem completePred_mem (p : Pred) (s : State) : (completePred p s).mem = s.mem := by
  unfold completePred
  split <;> rfl

theorem completeCost_mem (r : List Byte) (s : State) : (completeCost r s).mem = s.mem := by
  unfold completeCost
  split <;> rfl

/-- PRED changes no memory, however it ends (log 7). -/
theorem exec_pred_busy_mem {chan : BitVec 2} {fset orient : Bool} {k : BitVec 4} {s t : State} (hp : s.phase = .busy)
    (h : exec (.pred chan fset orient k) s = .next t) : t.mem = s.mem := by
  cases hk : predOfId k.toNat with
  | none => simp [exec, execPred, hp, hk] at h
  | some p =>
    obtain rfl : completePred p s = t := by simpa [exec_pred_busy hp hk] using h
    exact completePred_mem p s

/-- COST changes no memory, however it ends (log 7). -/
theorem exec_cost_busy_mem {chan : BitVec 2} {fset orient : Bool} {k : BitVec 4} {s t : State} (hp : s.phase = .busy)
    (h : exec (.cost chan fset orient k) s = .next t) : t.mem = s.mem := by
  cases hk : costRow k.toNat s with
  | none => simp [exec, execCost, hp, hk] at h
  | some r =>
    obtain rfl : completeCost r s = t := by simpa [exec_cost_busy hp hk] using h
    exact completeCost_mem r s

/-- An encoder's output that fits, with a byte of its place refused. -/
theorem storeEncoded_refused {s : State} {bs : List Byte} (done : State → State)
    (hfit : bs.length ≤ s.lat.dstCap.toNat)
    (h : refusedOf s.platform .write (addrRange s.lat.dstAddr.toNat bs.length) ≠ []) :
    storeEncoded bs done s = raiseBus (refusedOf s.platform .write (addrRange s.lat.dstAddr.toNat bs.length)) s := by
  rw [storeEncoded, if_neg (Nat.not_lt.mpr hfit), storeOutput_refused done h]

/-- A decoded plane with a byte of its place refused. -/
theorem finishDecode_refused {s : State} {transposed : Bool} {e : Engine}
    (hshape : isPlane (decodedPlane transposed s.lat.height.toNat e) s.lat.height.toNat s.lat.width.toNat)
    (h : refusedOf s.platform .write
      (addrRange s.lat.dstAddr.toNat (s.lat.height.toNat * s.lat.width.toNat)) ≠ []) :
    finishDecode transposed (.done e) s
      = raiseBus (refusedOf s.platform .write
          (addrRange s.lat.dstAddr.toNat (s.lat.height.toNat * s.lat.width.toNat))) { s with eng := e } := by
  have hlen : (planeBytes (decodedPlane transposed s.lat.height.toNat e)).length
      = s.lat.height.toNat * s.lat.width.toNat := by rw [planeBytes, length_flatten_rows _ hshape.2, hshape.1]
  rw [← hlen] at h ⊢
  simp only [finishDecode, storePlane]
  exact storeOutput_refused (s := { s with eng := e }) _ h

/-- Settles O33, command by command: the reads, then the writes of an output. -/
theorem refusedReadIsBusError : Obligations.RefusedReadIsBusError := by
  rintro chan fset orient k s h w src dst hp hw rfl rfl rfl rfl
  refine ⟨?_, ?_, ?_, fun hk => ?_, fun hk => ?_, ?_, ?_, ?_, ?_, ?_⟩
  · exact refusalEnds_of_raiseBus hw fun hne => ⟨s.eng, by rw [exec_encp_busy hp, completeEncp_refused hne]; rfl⟩
  · exact refusalEnds_of_raiseBus hw fun hne => ⟨s.eng, by rw [exec_encc_busy hp, completeEncc_refused hne]; rfl⟩
  · exact refusalEnds_of_raiseBus hw fun hne => ⟨s.eng, by rw [exec_decc_busy hp, completeDecc_refused hne]⟩
  · obtain ⟨p, hpred, -⟩ := predOfId_table hk
    exact refusalEnds_of_raiseBusNoDst fun hne => by rw [exec_pred_busy hp hpred, completePred_refused hne]
  · obtain ⟨r, hr⟩ : ∃ r, costRow k.toNat s = some r := exists_candidateRow hk _ _ _
    exact refusalEnds_of_raiseBusNoDst fun hne => by rw [exec_cost_busy hp hr, completeCost_refused hne]
  · rintro t (ht | ht)
    · exact exec_pred_busy_mem hp ht
    · exact exec_cost_busy_mem hp ht
  · rintro bs hread rfl hfit
    rw [← encodeOriented_stream] at hfit ⊢
    exact refusalEnds_of_raiseBus hw fun hne => ⟨_, by
      rw [exec_encp_busy hp, completeEncp_admitted hread]
      exact congrArg _ (storeEncoded_refused (s := { s with eng := _ }) _ hfit hne)⟩
  · rintro c hread rfl hfit
    exact refusalEnds_of_raiseBus hw fun hne => ⟨_, by
      rw [exec_encc_busy hp, completeEncc_admitted hread]
      exact congrArg _ (storeEncoded_refused (s := { s with eng := _ }) _ hfit hne)⟩
  · intro e he
    exact refusalEnds_of_raiseBus hw fun hne => ⟨e, by
      rw [exec_decp_busy hp, completeDecp, he, finishDecode_refused (decodedPlane_shape he) hne]⟩
  · intro e hread he
    exact refusalEnds_of_raiseBus hw fun hne => ⟨e, by
      rw [exec_decc_busy hp, completeDecc_admitted hread, he, finishDecode_refused (decodeChannel_shape he) hne]⟩

end Sys2Proof.Machine
end

section
/-! SUPPORT. The host's duties: which addresses are guarded, what the host's store does, and which guards a step keeps. -/

namespace Sys2Proof.Machine

theorem guarded_iff {s : State} {a : Nat} :
    guarded s a = true ↔ ∃ g ∈ s.guards, inRegion g.src a = true ∨ inRegion g.dst a = true := by
  simp [guarded]

theorem guardOf_src {l : Latch} (h : l.op ≠ 0) : (guardOf l).src = l.srcRegion :=
  if_neg fun h0 => h (BitVec.eq_of_toNat_eq h0)

theorem guardOf_dst {l : Latch} (h : l.hasDst = true) : (guardOf l).dst = l.dstRegion := if_pos h

/-- The address lies in a region the latched command uses (70_reset_and_hazards.md R172, R173). -/
def Latch.usesAddr (l : Latch) (a : Nat) : Prop :=
  (l.op ≠ 0 ∧ inRegion l.srcRegion a = true) ∨ (l.hasDst = true ∧ inRegion l.dstRegion a = true)

theorem Latch.usesAddr.inGuard {l : Latch} {a : Nat} (h : l.usesAddr a) :
    inRegion (guardOf l).src a = true ∨ inRegion (guardOf l).dst a = true := by
  rcases h with ⟨hop, ha⟩ | ⟨hd, ha⟩
  · exact .inl (by rwa [guardOf_src hop])
  · exact .inr (by rwa [guardOf_dst hd])

/-- While BUSY the regions of the running command are guarded (log 12). -/
theorem State.Inv.guarded_of_uses {s : State} (h : s.Inv) (hp : s.phase = .busy) {a : Nat} (ha : s.lat.usesAddr a) :
    guarded s a = true :=
  guarded_iff.mpr ⟨_, h.busyGuard hp, ha.inGuard⟩

theorem step_memWrite {s : State} {es : List Event} {w : Word} {b : Byte} (hs : s.script = .memWrite w b :: es) :
    step s = .next (hostStore w b { s with script := es }) := by
  rw [step_eq, fetchNext, hs]
  rfl

/-- A step from a state that meets the invariant is a case of `Took`, its event the head of the script. -/
theorem State.Inv.took {s t : State} (h : s.Inv) (hst : step s = .next t) :
    Took s.script.head? { s with script := s.script.tail } t := by
  rcases step_spec h.busyChecked with ⟨r, hr⟩ | ⟨u, hu, hcases⟩
  · simp [hr] at hst
  · obtain rfl : u = t := by simpa [hu] using hst
    rcases hcases with ⟨hs, hT, -⟩ | ⟨e, es, hs, hT⟩
    · have hself : { s with script := s.script.tail } = s := by rw [hs, List.tail_nil, ← hs]
      rwa [hself, hs]
    · rwa [hs]

/-- The engine's turn while BUSY is the end of the command (43_commands.md R135). -/
theorem State.Inv.step_engine_ends {s : State} {es : List Event} (h : s.Inv) (hp : s.phase = .busy)
    (hs : s.script = .engine :: es) : ∃ t, step s = .next t ∧ Ends { s with script := es } t := by
  obtain ⟨t, ht, -, hends⟩ := fetchEngine_spec (s := { s with script := es }) h.busyChecked none
  exact ⟨t, (step_engine hs).trans ht, hends hp⟩

/-- Settles O41: the store marks a hazard exactly at a guarded address; the guards, the running command's among them,
stay over every step that shows the host no end, the engine's turn included. -/
theorem storeToBusyRegionIsHazard : Obligations.StoreToBusyRegionIsHazard := by
  intro s w b es h
  refine ⟨fun hs hz => ?_, fun t g hst hg => (h.took hst).guards hg, fun hp hs ha => ?_⟩
  · have hmark : (hostStore w b { s with script := es }).hazard = true ↔ guarded s w.toNat = true := by
      simp [hz, guarded]
    refine ⟨_, step_memWrite hs, ?_, rfl, fun hp hop hin => ?_, fun hp hd hin => ?_, hmark.trans guarded_iff⟩
    · rw [hostStore_mem, Memory.read_write h.memWf w.isLt, if_pos rfl]
    · exact hmark.mpr (h.guarded_of_uses hp (.inl ⟨hop, hin⟩))
    · exact hmark.mpr (h.guarded_of_uses hp (.inr ⟨hd, hin⟩))
  · obtain ⟨t, ht, hE⟩ := h.step_engine_ends hp hs
    have hguarded : guarded t w.toNat = true := by
      rw [guarded, hE.guards]
      exact h.guarded_of_uses hp ha
    refine ⟨t, _, ht, hE.idle, step_memWrite hE.script, ?_⟩
    rw [hostStore_hazard, Bool.or_eq_true]
    exact .inr hguarded

end Sys2Proof.Machine
end
